-- ==== Sys2Proof/Word.lean ====
section
/-! DEFINITION. The one data width of the machine (spec/00_scope.md R5, R6). -/

namespace Sys2Proof

/-- A value of `I64`: every memory cell, every queue element, `IP` and `RB` (spec/00_scope.md R6). Its integer
value is `BitVec.toInt`, from -2^63 to 2^63 - 1. -/
abbrev Word := BitVec 64

end Sys2Proof
end

