-- ==== Sys2Proof/Config.lean ====
section
/-! DEFINITION. The open parameters of the machine (spec/00_scope.md R5): what an implementation fixes. The spec leaves
no value free ("Nothing in the machine draws a value", spec/49_run_and_host.md R161), so there is no opaque constant. -/

namespace Sys2Proof

/-- `OVERFLOW_MODE` (spec/00_scope.md R5, spec/40_arithmetic.md R110): what add, multiply and adjust-relative-base do
with an exact result outside the signed 64-bit range. -/
inductive OverflowMode where
  | fault
  | wrap
  deriving DecidableEq, Repr

/-- The OPEN parameters of spec/00_scope.md R5. -/
structure Params where
  /-- `MEM_MAX`, the largest number of cells Memory can ever hold. -/
  memMax : Nat
  /-- `OVERFLOW_MODE`. -/
  overflowMode : OverflowMode
  deriving DecidableEq, Repr

/-- The largest value of `I64`, 2^63 - 1, as a natural number. -/
abbrev maxCell : Nat := 2 ^ 63 - 1

/-- The range R5 gives `MEM_MAX`: 1 ≤ MEM_MAX ≤ 2^63 - 1. -/
abbrev Params.Wf (p : Params) : Prop := 1 ≤ p.memMax ∧ p.memMax ≤ maxCell

/-- R5's defaults: `MEM_MAX` = 2^63 - 1, `OVERFLOW_MODE` = fault. -/
def Params.default : Params := { memMax := maxCell, overflowMode := .fault }

end Sys2Proof
end

