-- ==== Sys2Proof/Machine/State.lean ====
section
/-! DEFINITION. The state of one VM instance as plain data (spec/10_state.md R20) and its reset value (R35). -/

namespace Sys2Proof.Machine

/-- `M` (spec/10_state.md R23): a growable array of cells addressed by a non-negative index. It is held in one
canonical form (`Memory.wf` in Machine/Ops.lean): the cells that are not zero, addresses strictly rising, and the
length. A cell that is not listed holds 0 (R23, R35). The unit is the cell, never a byte (spec/20_memory.md R51; log
entry 2). -/
structure Memory where
  cells : List (Nat × Word)
  len : Nat
  deriving DecidableEq, Repr

/-- `RS`, the run state (spec/10_state.md R28). -/
inductive RunState where
  | ready
  | suspended
  | halted
  | faulted
  deriving DecidableEq, Repr

/-- The six fault causes (spec/60_exceptions.md R200). -/
inductive Cause where
  | unsupportedOpcode
  | unsupportedAddressingMode
  | invalidWriteTarget
  | outOfBounds
  | capacityExceeded
  | arithmeticOverflow
  deriving DecidableEq, Repr

/-- A fault record (spec/10_state.md R29, spec/60_exceptions.md R200): `info` is an integer of `Z`. -/
structure FaultRecord where
  cause : Cause
  ip : Word
  info : Int
  deriving DecidableEq, Repr

/-- What an observer registration links to (spec/10_state.md R30): the inbound queue of the instance with an index in
a topology (spec/49_run_and_host.md R178), or a consumer outside it (log entry 9). -/
inductive Consumer where
  | vm (index : Nat)
  | outside (id : Nat)
  deriving DecidableEq, Repr

/-- One call `notify(OBS, v)` (spec/41_io.md R123). -/
structure Notice where
  consumer : Consumer
  value : Word
  deriving DecidableEq, Repr

/-- The state of one instance (spec/10_state.md R20). `params` and `notices` are the model's own fields (log entries
1 and 6). -/
structure State where
  /-- `M`, Memory (R23). -/
  mem : Memory
  /-- `IP`, the instruction pointer (R24). -/
  ip : Word
  /-- `RB`, the relative base (R25). -/
  rb : Word
  /-- `Qin`, the inbound queue, head first (R26, R36). -/
  qin : List Word
  /-- `Qout`, the outbound queue, head first (R26, R27). -/
  qout : List Word
  /-- `RS`, the run state (R28). -/
  rs : RunState
  /-- `FC`, the fault record (R29). -/
  fc : Option FaultRecord
  /-- `OBS`, the output-observer registration (R30). -/
  obs : Option Consumer
  /-- Every `notify` so far, oldest first. -/
  notices : List Notice
  /-- `MEM_MAX` and `OVERFLOW_MODE` (spec/00_scope.md R5). -/
  params : Params
  deriving DecidableEq, Repr

/-- Why a step stops. -/
inductive Fault where
  /-- Raised by `step` on an instance that is `FAULTED`: no step is taken, and what is reported is the record `FC` that
  the faulting instruction left (spec/49_run_and_host.md R164, spec/60_exceptions.md R213). Safe: nothing goes on. -/
  | faulted (record : Option FaultRecord)
  deriving DecidableEq, Repr

/-- Why an instruction has no meaning. -/
inductive Refusal where
  /-- An instruction that the model gives no meaning yet. No arm of exec answers it. Safe: nothing goes on. -/
  | notModelled (mnemonic : String)
  deriving DecidableEq, Repr

/-- The machine right after reset (spec/10_state.md R35, spec/70_reset_and_hazards.md R240) from the empty image, with
R5's default parameters (log entry 5). Reset from any image is `construct` in Machine/HostOps.lean. -/
def State.reset : State where
  mem := { cells := [], len := 0 }
  ip := 0#64
  rb := 0#64
  qin := []
  qout := []
  rs := .ready
  fc := none
  obs := none
  notices := []
  params := Params.default

end Sys2Proof.Machine
end

