-- ==== Sys2Proof/Machine/Ops.lean ====
section
/-! DEFINITION. The named operations over memory, registers and queues, and taking a fault. -/

namespace Sys2Proof.Machine

/-- What a `raise` carries: the cause and the info of spec/60_exceptions.md R200. -/
structure Trap where
  cause : Cause
  info : Int
  deriving DecidableEq, Repr

/-! ### Memory -/

/-- The value of a cell: 0 when it is not listed (spec/10_state.md R35, spec/20_memory.md R53). -/
def lookupCell : List (Nat × Word) → Nat → Word
  | [], _ => 0#64
  | (b, u) :: rest, a => if a = b then u else lookupCell rest a

/-- The list with cell `a` holding `v`, in canonical form: a zero is not listed. -/
def putCell : List (Nat × Word) → Nat → Word → List (Nat × Word)
  | [], a, v => if v = 0#64 then [] else [(a, v)]
  | (b, u) :: rest, a, v =>
    if a < b then (if v = 0#64 then (b, u) :: rest else (a, v) :: (b, u) :: rest)
    else if a = b then (if v = 0#64 then rest else (a, v) :: rest)
    else (b, u) :: putCell rest a v

/-- The canonical form: addresses strictly rising, no zero listed, nothing listed at or beyond the end. -/
abbrev Memory.wf (m : Memory) : Prop :=
  m.cells.Pairwise (fun x y => x.1 < y.1) ∧ ∀ c ∈ m.cells, c.2 ≠ 0#64 ∧ c.1 < m.len

/-- `M[a]`. -/
def Memory.get (m : Memory) (a : Nat) : Word := lookupCell m.cells a

/-- Growth (spec/20_memory.md R57): when `a` is at or beyond the end, the new length is exactly `a + 1` and the new
cells hold 0. Memory never shrinks. -/
def Memory.grow (m : Memory) (a : Nat) : Memory := { m with len := max m.len (a + 1) }

/-- `M[a] <- v`, growing first (spec/20_memory.md R54, R57). -/
def Memory.write (m : Memory) (a : Nat) (v : Word) : Memory :=
  { cells := putCell m.cells a v, len := max m.len (a + 1) }

/-- `CheckAddr(a)` (spec/20_memory.md R56). -/
def checkAddr (p : Params) (a : Int) : Except Trap Nat :=
  if a < 0 then .error ⟨.outOfBounds, a⟩
  else if (p.memMax : Int) ≤ a then .error ⟨.capacityExceeded, a⟩
  else .ok a.toNat

/-- `MemRead(a, 1)` (spec/20_memory.md R53): the value, and Memory grown to hold `a`. -/
def memRead (p : Params) (m : Memory) (a : Int) : Except Trap (Word × Memory) :=
  match checkAddr p a with
  | .error t => .error t
  | .ok n => .ok (m.get n, m.grow n)

/-- `Fetch(a)` (spec/20_memory.md R55): never grows Memory. -/
def fetch (m : Memory) (a : Int) : Except Trap Word :=
  if a < 0 ∨ (m.len : Int) ≤ a then .error ⟨.outOfBounds, a⟩ else .ok (m.get a.toNat)

/-! ### Registers, queues and run state -/

/-- `M <- m`. -/
def State.setMem (s : State) (m : Memory) : State := { s with mem := m }

/-- `IP <- v`. -/
def State.setIp (s : State) (v : Word) : State := { s with ip := v }

/-- `IP <- IP + n` (spec/10_state.md R24). The sum leaves `I64` in no state that meets the model's invariant (log entry
16). -/
def State.advance (s : State) (n : Nat) : State := { s with ip := s.ip + BitVec.ofNat 64 n }

/-- `RB <- v`. -/
def State.setRb (s : State) (v : Word) : State := { s with rb := v }

/-- `Qin <- q`. -/
def State.setQin (s : State) (q : List Word) : State := { s with qin := q }

/-- `push(Qin, v)` (spec/10_state.md R26). -/
def State.pushIn (s : State) (v : Word) : State := { s with qin := s.qin ++ [v] }

/-- `push(Qout, v)` (spec/10_state.md R26). -/
def State.pushOut (s : State) (v : Word) : State := { s with qout := s.qout ++ [v] }

/-- `if OBS != none: notify(OBS, v)` (spec/41_io.md R122, R123). -/
def State.notify (s : State) (v : Word) : State :=
  { s with notices := s.notices ++ (match s.obs with | none => [] | some c => [⟨c, v⟩]) }

/-- `RS <- r`. -/
def State.setRs (s : State) (r : RunState) : State := { s with rs := r }

/-- Fault entry (spec/60_exceptions.md R206): `RS <- FAULTED` and `FC <- (cause, IP, info)`, nothing else. There is no
vector, no handler and no return (R207, R213). -/
def State.raise (s : State) (t : Trap) : State :=
  { s with rs := .faulted, fc := some { cause := t.cause, ip := s.ip, info := t.info } }

/-- `suspend` (spec/41_io.md R121): the one change is `RS <- SUSPENDED`. -/
def State.suspend (s : State) : State := { s with rs := .suspended }

/-- `halt` (spec/45_halt.md R155): the one change is `RS <- HALTED`. -/
def State.halt (s : State) : State := { s with rs := .halted }

/-- The end of a step (spec/00_scope.md R9, spec/60_exceptions.md R206): the new state, or, when a `raise` was
reached, the state before the step with the fault recorded. -/
def settle (s : State) : Except Trap State → Host.Outcome State Fault Refusal
  | .ok t => .next t
  | .error t => .next (s.raise t)

end Sys2Proof.Machine
end

