-- ==== Sys2Proof/Machine/Flags.lean ====
section
/-! DEFINITION. The machine has no flags (spec/10_state.md R22). What stands in their place: the result check and the
truth values. -/

namespace Sys2Proof.Machine

/-- Whether an exact result is a value of `I64` (spec/00_scope.md R6). -/
abbrev InI64 (v : Int) : Prop := -2 ^ 63 ≤ v ∧ v ≤ 2 ^ 63 - 1

/-- `chk64(v)` (spec/40_arithmetic.md R110). `BitVec.ofInt 64 v` is `((v + 2^63) mod 2^64) - 2^63`. -/
def chk64 (p : Params) (v : Int) : Except Trap Word :=
  if InI64 v then .ok (BitVec.ofInt 64 v)
  else
    match p.overflowMode with
    | .fault => .error ⟨.arithmeticOverflow, v⟩
    | .wrap => .ok (BitVec.ofInt 64 v)

/-- The comparison instructions' result: exactly 1 for true, 0 for false (spec/43_compare.md R142). -/
def truth (b : Bool) : Word := if b then 1#64 else 0#64

end Sys2Proof.Machine
end

