-- ==== Sys2Proof/Syntax.lean ====
section
/-! DEFINITION. The instructions as syntax: one constructor per row of spec/opcode_table.json (spec/30_encoding.md R84). -/

namespace Sys2Proof

/-- The addressing modes, mode digits 0, 1 and 2 (spec/30_encoding.md R88). -/
inductive Mode where
  | position
  | immediate
  | relative
  deriving DecidableEq, Repr

/-- A parameter: the cell at `IP + 1 + k` and the mode its digit gives it (spec/30_encoding.md R80, R81). -/
structure Param where
  mode : Mode
  cell : Word
  deriving DecidableEq, Repr

/-- The ten instructions (spec/30_encoding.md R84). `high` is the number written by the digits of the instruction
word above the mode digit of the last parameter (for halt: above the opcode). They are not examined and have no effect
(R83), but they are part of the word that a write-target fault records (R91, R200), so the decoded instruction keeps
them. -/
inductive Instr where
  | add (a b dst : Param) (high : Nat)
  | multiply (a b dst : Param) (high : Nat)
  | input (dst : Param) (high : Nat)
  | output (a : Param) (high : Nat)
  | jumpIfTrue (a b : Param) (high : Nat)
  | jumpIfFalse (a b : Param) (high : Nat)
  | lessThan (a b dst : Param) (high : Nat)
  | equals (a b dst : Param) (high : Nat)
  | adjustRelativeBase (a : Param) (high : Nat)
  | halt (high : Nat)
  deriving DecidableEq, Repr

/-- The parameters in address order. -/
def Instr.params : Instr → List Param
  | .add a b dst _ => [a, b, dst]
  | .multiply a b dst _ => [a, b, dst]
  | .input dst _ => [dst]
  | .output a _ => [a]
  | .jumpIfTrue a b _ => [a, b]
  | .jumpIfFalse a b _ => [a, b]
  | .lessThan a b dst _ => [a, b, dst]
  | .equals a b dst _ => [a, b, dst]
  | .adjustRelativeBase a _ => [a]
  | .halt _ => []

/-- The digits of the word that no field of the opcode reads. -/
def Instr.high : Instr → Nat
  | .add _ _ _ h => h
  | .multiply _ _ _ h => h
  | .input _ h => h
  | .output _ h => h
  | .jumpIfTrue _ _ h => h
  | .jumpIfFalse _ _ h => h
  | .lessThan _ _ _ h => h
  | .equals _ _ _ h => h
  | .adjustRelativeBase _ h => h
  | .halt h => h

/-- The same instruction with other unexamined digits. -/
def Instr.withHigh : Instr → Nat → Instr
  | .add a b dst _, h => .add a b dst h
  | .multiply a b dst _, h => .multiply a b dst h
  | .input dst _, h => .input dst h
  | .output a _, h => .output a h
  | .jumpIfTrue a b _, h => .jumpIfTrue a b h
  | .jumpIfFalse a b _, h => .jumpIfFalse a b h
  | .lessThan a b dst _, h => .lessThan a b dst h
  | .equals a b dst _, h => .equals a b dst h
  | .adjustRelativeBase a _, h => .adjustRelativeBase a h
  | .halt _, h => .halt h

/-- The instruction length in cells, "1 + parameter count" (spec/30_encoding.md R80). -/
def Instr.length (i : Instr) : Nat := 1 + i.params.length

end Sys2Proof
end

