-- ==== Sys2Proof/Machine/Operands.lean ====
section
/-! DEFINITION. Operand access by addressing mode (spec/30_encoding.md R88 to R92), and the shape shared by the
instructions with two read parameters and a destination. -/

namespace Sys2Proof.Machine

/-- The address a parameter names, exact in `Z` (spec/30_encoding.md R89): the cell in position mode, `RB + p` in
relative mode, none in immediate mode. -/
def paramAddr (rb : Word) (p : Param) : Option Int :=
  match p.mode with
  | .position => some p.cell.toInt
  | .immediate => none
  | .relative => some (rb.toInt + p.cell.toInt)

/-- `Rd(k)` (spec/30_encoding.md R90) on the memory `m`: the value, and Memory as the read leaves it. -/
def rd (s : State) (m : Memory) (p : Param) : Except Trap (Word × Memory) :=
  match paramAddr s.rb p with
  | none => .ok (p.cell, m)
  | some a => memRead s.params m a

/-- `WrAddr(k)` (spec/30_encoding.md R91); `w` is the instruction word. -/
def wrAddr (s : State) (w : Int) (p : Param) : Except Trap Nat :=
  match paramAddr s.rb p with
  | none => .error ⟨.invalidWriteTarget, w⟩
  | some a => checkAddr s.params a

/-- Format F3 in the order of spec/30_encoding.md R92: `Rd(0)`, `Rd(1)`, `WrAddr(2)`, the operation, `MemWrite`, and
the advance by 4. -/
def threeOperand (op : Word → Word → Except Trap Word) (w : Int) (a b dst : Param) (s : State) :
    Host.Outcome State Fault Refusal :=
  settle s <|
    match rd s s.mem a with
    | .error t => .error t
    | .ok (x, m1) =>
      match rd s m1 b with
      | .error t => .error t
      | .ok (y, m2) =>
        match wrAddr s w dst with
        | .error t => .error t
        | .ok d =>
          match op x y with
          | .error t => .error t
          | .ok v => .ok ((s.setMem (m2.write d v)).advance 4)

end Sys2Proof.Machine
end

