-- ==== Sys2Proof/WellFormed.lean ====
section
/-! DEFINITION. Which instructions have a word: the number the word writes in decimal fits a cell
(spec/30_encoding.md R80, R81). -/

namespace Sys2Proof

/-- The mode digit (spec/30_encoding.md R88). -/
def Mode.digit : Mode → Nat
  | .position => 0
  | .immediate => 1
  | .relative => 2

/-- The opcode, the two low decimal digits of the word (spec/30_encoding.md R84). -/
def Instr.opcode : Instr → Nat
  | .add _ _ _ _ => 1
  | .multiply _ _ _ _ => 2
  | .input _ _ => 3
  | .output _ _ => 4
  | .jumpIfTrue _ _ _ => 5
  | .jumpIfFalse _ _ _ => 6
  | .lessThan _ _ _ _ => 7
  | .equals _ _ _ _ => 8
  | .adjustRelativeBase _ _ => 9
  | .halt _ => 99

/-- The number written by the digits above the opcode: the mode digit of parameter 0 is the lowest, and above the
last parameter's digit stand the unexamined ones (spec/30_encoding.md R81, R83). -/
def modeDigits : List Param → Nat → Nat
  | [], high => high
  | p :: ps, high => p.mode.digit + 10 * modeDigits ps high

/-- The instruction word as a number (spec/30_encoding.md R81, R85). -/
def Instr.wordNat (i : Instr) : Nat := i.opcode + 100 * modeDigits i.params i.high

/-- An instruction is well formed when its word is a value of `I64`. -/
def Instr.wf (i : Instr) : Bool := decide (i.wordNat < 2 ^ 63)

end Sys2Proof
end

