-- ==== Sys2Proof/Machine/Arithmetic.lean ====
section
/-! DEFINITION. add and multiply (spec/40_arithmetic.md). -/

namespace Sys2Proof.Machine

/-- add (spec/40_arithmetic.md R111): `dst = read(a) + read(b)`, the sum exact in `Z`. -/
def execAdd (a b dst : Param) (high : Nat) (s : State) : Host.Outcome State Fault Refusal :=
  threeOperand (fun x y => chk64 s.params (x.toInt + y.toInt)) (Instr.add a b dst high).wordNat a b dst s

/-- multiply (spec/40_arithmetic.md R112): `dst = read(a) * read(b)`, the product exact in `Z`. -/
def execMultiply (a b dst : Param) (high : Nat) (s : State) : Host.Outcome State Fault Refusal :=
  threeOperand (fun x y => chk64 s.params (x.toInt * y.toInt)) (Instr.multiply a b dst high).wordNat a b dst s

end Sys2Proof.Machine
end

