-- ==== Sys2Proof/Machine/Compare.lean ====
section
/-! DEFINITION. less-than and equals (spec/43_compare.md). -/

namespace Sys2Proof.Machine

/-- less-than (spec/43_compare.md R140): a signed, exact comparison. -/
def execLessThan (a b dst : Param) (high : Nat) (s : State) : Host.Outcome State Fault Refusal :=
  threeOperand (fun x y => .ok (truth (decide (x.toInt < y.toInt)))) (Instr.lessThan a b dst high).wordNat a b dst s

/-- equals (spec/43_compare.md R141): equality of whole 64-bit values. -/
def execEquals (a b dst : Param) (high : Nat) (s : State) : Host.Outcome State Fault Refusal :=
  threeOperand (fun x y => .ok (truth (decide (x = y)))) (Instr.equals a b dst high).wordNat a b dst s

end Sys2Proof.Machine
end

