-- ==== Sys2Proof/Machine/Halt.lean ====
section
/-! DEFINITION. halt (spec/45_halt.md). -/

namespace Sys2Proof.Machine

/-- halt (spec/45_halt.md R155): `IP` stays on the halt word. -/
def execHalt (_high : Nat) (s : State) : Host.Outcome State Fault Refusal := .next s.halt

end Sys2Proof.Machine
end

