-- ==== Sys2Proof/Machine/InputOutput.lean ====
section
/-! DEFINITION. input and output (spec/41_io.md). -/

namespace Sys2Proof.Machine

/-- input (spec/41_io.md R120, R121): the queue is tested before the destination is looked at. -/
def execInput (dst : Param) (high : Nat) (s : State) : Host.Outcome State Fault Refusal :=
  match s.qin with
  | [] => .next s.suspend
  | v :: rest =>
    settle s <|
      match wrAddr s (Instr.input dst high).wordNat dst with
      | .error t => .error t
      | .ok d => .ok (((s.setQin rest).setMem (s.mem.write d v)).advance 2)

/-- output (spec/41_io.md R122, R123): push and notification are one atomic step. -/
def execOutput (a : Param) (_high : Nat) (s : State) : Host.Outcome State Fault Refusal :=
  settle s <|
    match rd s s.mem a with
    | .error t => .error t
    | .ok (v, m1) => .ok ((((s.setMem m1).pushOut v).notify v).advance 2)

end Sys2Proof.Machine
end

