-- ==== Sys2Proof/Machine/Jumps.lean ====
section
/-! DEFINITION. The conditional jumps (spec/42_jumps.md). -/

namespace Sys2Proof.Machine

/-- The shape of both jumps: `b` is read only when the jump is taken (spec/42_jumps.md R130); its value is the next
`IP`, unchecked (R132). -/
def jumpWhen (taken : Word → Bool) (a b : Param) (s : State) : Host.Outcome State Fault Refusal :=
  settle s <|
    match rd s s.mem a with
    | .error t => .error t
    | .ok (c, m1) =>
      match taken c with
      | true =>
        match rd s m1 b with
        | .error t => .error t
        | .ok (target, m2) => .ok ((s.setMem m2).setIp target)
      | false => .ok ((s.setMem m1).advance 3)

/-- jump-if-true (spec/42_jumps.md R130): every non-zero value is true. -/
def execJumpIfTrue (a b : Param) (_high : Nat) (s : State) : Host.Outcome State Fault Refusal :=
  jumpWhen (fun c => decide (c ≠ 0#64)) a b s

/-- jump-if-false (spec/42_jumps.md R131). -/
def execJumpIfFalse (a b : Param) (_high : Nat) (s : State) : Host.Outcome State Fault Refusal :=
  jumpWhen (fun c => decide (c = 0#64)) a b s

end Sys2Proof.Machine
end

