-- ==== Sys2Proof/Machine/RelativeBase.lean ====
section
/-! DEFINITION. adjust-relative-base (spec/44_relative_base.md). -/

namespace Sys2Proof.Machine

/-- adjust-relative-base (spec/44_relative_base.md R150): the operand is read under the old `RB`. -/
def execAdjustRelativeBase (a : Param) (_high : Nat) (s : State) : Host.Outcome State Fault Refusal :=
  settle s <|
    match rd s s.mem a with
    | .error t => .error t
    | .ok (x, m1) =>
      match chk64 s.params (s.rb.toInt + x.toInt) with
      | .error t => .error t
      | .ok v => .ok (((s.setMem m1).setRb v).advance 2)

end Sys2Proof.Machine
end

