-- ==== Sys2Proof/Machine/Dispatch.lean ====
section
/-! DEFINITION. One arm per instruction (spec/49_run_and_host.md R161). -/

namespace Sys2Proof.Machine

/-- The effect of a decoded instruction, the one at `IP`. -/
def exec (i : Instr) (s : State) : Host.Outcome State Fault Refusal :=
  match i with
  | .add a b dst high => Sys2Proof.Machine.execAdd a b dst high s
  | .multiply a b dst high => Sys2Proof.Machine.execMultiply a b dst high s
  | .input dst high => Sys2Proof.Machine.execInput dst high s
  | .output a high => Sys2Proof.Machine.execOutput a high s
  | .jumpIfTrue a b high => Sys2Proof.Machine.execJumpIfTrue a b high s
  | .jumpIfFalse a b high => Sys2Proof.Machine.execJumpIfFalse a b high s
  | .lessThan a b dst high => Sys2Proof.Machine.execLessThan a b dst high s
  | .equals a b dst high => Sys2Proof.Machine.execEquals a b dst high s
  | .adjustRelativeBase a high => Sys2Proof.Machine.execAdjustRelativeBase a high s
  | .halt high => Sys2Proof.Machine.execHalt high s

end Sys2Proof.Machine
end

