-- ==== Sys2Proof/Decode.lean ====
section
/-! DEFINITION. The decoder (spec/30_encoding.md R87), a pure function of the cells that a fetch at `IP` can read, and
the encoder written from the same table. -/

namespace Sys2Proof

/-- Why no instruction can be read. `noWord` and `noParameter k` say that the cells ran out: the fetch of the word, or
of parameter `k`, was outside Memory (spec/20_memory.md R55). -/
inductive DecodeError where
  | noWord
  | unsupportedOpcode (w : Word)
  | unsupportedAddressingMode (w : Word)
  | noParameter (k : Nat)
  deriving DecidableEq, Repr

/-- `dig(w, k)`, the decimal digit of weight 10^k (spec/00_scope.md R6). -/
def dig (w k : Nat) : Nat := w / 10 ^ k % 10

/-- The mode a digit names; 3 to 9 name none (spec/30_encoding.md R88). -/
def Mode.ofDigit? : Nat → Option Mode
  | 0 => some .position
  | 1 => some .immediate
  | 2 => some .relative
  | _ => none

/-- The mode of parameter `k` of the word `w` (spec/30_encoding.md R81). -/
def modeOf (w : Word) (k : Nat) : Option Mode := Mode.ofDigit? (dig w.toNat (2 + k))

/-- Formats F1R and F1W (spec/30_encoding.md R85): the mode digit is checked before the parameter is fetched (R87). -/
def decode1 (mk : Param → Nat → Instr) (w : Word) (cells : List Word) : Except DecodeError (Instr × List Word) :=
  match modeOf w 0 with
  | none => .error (.unsupportedAddressingMode w)
  | some m0 =>
    match cells with
    | p0 :: rest => .ok (mk ⟨m0, p0⟩ (w.toNat / 10 ^ 3), rest)
    | [] => .error (.noParameter 0)

/-- Format F2. -/
def decode2 (mk : Param → Param → Nat → Instr) (w : Word) (cells : List Word) :
    Except DecodeError (Instr × List Word) :=
  match modeOf w 0, modeOf w 1 with
  | some m0, some m1 =>
    match cells with
    | p0 :: p1 :: rest => .ok (mk ⟨m0, p0⟩ ⟨m1, p1⟩ (w.toNat / 10 ^ 4), rest)
    | short => .error (.noParameter short.length)
  | _, _ => .error (.unsupportedAddressingMode w)

/-- Format F3. -/
def decode3 (mk : Param → Param → Param → Nat → Instr) (w : Word) (cells : List Word) :
    Except DecodeError (Instr × List Word) :=
  match modeOf w 0, modeOf w 1, modeOf w 2 with
  | some m0, some m1, some m2 =>
    match cells with
    | p0 :: p1 :: p2 :: rest => .ok (mk ⟨m0, p0⟩ ⟨m1, p1⟩ ⟨m2, p2⟩ (w.toNat / 10 ^ 5), rest)
    | short => .error (.noParameter short.length)
  | _, _, _ => .error (.unsupportedAddressingMode w)

/-- `Decode()` (spec/30_encoding.md R87) on the cells from `IP` on: the instruction and the cells after it. The order
of the checks is R87's: word fetch, sign (R82) and opcode (R84), mode digits, parameter fetches. Halt has no mode digit
and no parameter (R83). -/
def decode : List Word → Except DecodeError (Instr × List Word)
  | [] => .error .noWord
  | w :: cells =>
    if w.toInt < 0 then .error (.unsupportedOpcode w)
    else
      match w.toNat % 100 with
      | 1 => decode3 .add w cells
      | 2 => decode3 .multiply w cells
      | 3 => decode1 .input w cells
      | 4 => decode1 .output w cells
      | 5 => decode2 .jumpIfTrue w cells
      | 6 => decode2 .jumpIfFalse w cells
      | 7 => decode3 .lessThan w cells
      | 8 => decode3 .equals w cells
      | 9 => decode1 .adjustRelativeBase w cells
      | 99 => .ok (.halt (w.toNat / 100), cells)
      | _ => .error (.unsupportedOpcode w)

/-- The instruction word as a cell. -/
def encodeWord (i : Instr) : Word := BitVec.ofNat 64 i.wordNat

/-- The cells of an instruction, the word first (spec/30_encoding.md R80, R94). -/
def encode (i : Instr) : List Word := encodeWord i :: i.params.map Param.cell

/-- The four cells that a number `w` of `nbits` bits lays out: cell `k` is bits `64k` to `64k + 63`, every bit from
`nbits` up is 0 (log entry 13). -/
def tableCells (nbits w : Nat) : List Word :=
  let v := w % 2 ^ nbits
  [BitVec.ofNat 64 v, BitVec.ofNat 64 (v / 2 ^ 64), BitVec.ofNat 64 (v / 2 ^ 128), BitVec.ofNat 64 (v / 2 ^ 192)]

/-- What the decoder reads from an instruction whose bits are `w` (log entry 13). -/
def decodeTableWord (nbits w : Nat) : Option Instr :=
  match decode (tableCells nbits w) with
  | .ok (i, _) => some i
  | .error _ => none

end Sys2Proof
end

