-- ==== Sys2Proof/Machine/Fetch.lean ====
section
/-! DEFINITION. Fetching the instruction at `IP`, and placing one there. -/

namespace Sys2Proof.Machine

/-- The cells that `n` fetches from `a` on can read; the first one outside Memory ends them (spec/20_memory.md R55). -/
def fetchCells (m : Memory) : Nat → Int → List Word
  | 0, _ => []
  | n + 1, a =>
    match fetch m a with
    | .ok w => w :: fetchCells m n (a + 1)
    | .error _ => []

/-- The cells at `IP` to `IP + 3`, as far as they are inside Memory: an instruction has 1 to 4 cells
(spec/30_encoding.md R80). -/
def fetchWindow (s : State) : List Word := fetchCells s.mem 4 s.ip.toInt

/-- The fault each decode failure raises (spec/30_encoding.md R87, spec/60_exceptions.md R200). A cell that ran out is
the `OutOfBounds` of the fetch of that cell. -/
def decodeTrap (ip : Word) : DecodeError → Trap
  | .noWord => ⟨.outOfBounds, ip.toInt⟩
  | .unsupportedOpcode w => ⟨.unsupportedOpcode, w.toInt⟩
  | .unsupportedAddressingMode w => ⟨.unsupportedAddressingMode, w.toInt⟩
  | .noParameter k => ⟨.outOfBounds, ip.toInt + 1 + k⟩

/-- `Decode()` at `IP` (spec/30_encoding.md R87). -/
def fetchDecode (s : State) : Except Trap Instr :=
  match decode (fetchWindow s) with
  | .ok (i, _) => .ok i
  | .error e => .error (decodeTrap s.ip e)

/-- The next instruction is an input (spec/49_run_and_host.md R175). -/
def atInput (s : State) : Bool :=
  match fetchDecode s with
  | .ok (.input _ _) => true
  | _ => false

/-- Cells written one after the other from address `a` on. -/
def writeCells (m : Memory) : Nat → List Word → Memory
  | _, [] => m
  | a, w :: ws => writeCells (m.write a w) (a + 1) ws

/-- `s` with the cells `ws` at `IP` and able to fetch: an instance that is `HALTED` or `FAULTED` fetches nothing, so it
is made `READY` with no fault record, as a fresh instance is. Where `IP` to `IP + 3` are no addresses of a Memory of
`MEM_MAX` cells there is no place for them, and `s` is unchanged (log entry 13). -/
def placeAtIp (s : State) (ws : List Word) : State :=
  if 0 ≤ s.ip.toInt ∧ s.ip.toInt + 4 ≤ s.params.memMax then
    let t := s.setMem (writeCells s.mem s.ip.toInt.toNat ws)
    match s.rs with
    | .ready | .suspended => t
    | .halted | .faulted => { t with rs := .ready, fc := none }
  else s

end Sys2Proof.Machine
end

