-- ==== Sys2Proof/Machine/Step.lean ====
section
/-! DEFINITION. One step (spec/49_run_and_host.md R161, R164, R165). -/

namespace Sys2Proof.Machine

/-- `Step()` (spec/49_run_and_host.md R161): decode at `IP`, and either the decode fault or the instruction's effect. -/
def stepReady (s : State) : Host.Outcome State Fault Refusal :=
  match fetchDecode s with
  | .error t => .next (s.raise t)
  | .ok i => exec i s

/-- One step of `run` (spec/49_run_and_host.md R164, R165). An instance that is `READY` or `SUSPENDED` is made `READY`
and takes its step. A `HALTED` one executes no step and changes nothing; a `FAULTED` one executes no step and reports
its record again (log entries 3 and 4). -/
def step (s : State) : Host.Outcome State Fault Refusal :=
  match s.rs with
  | .ready => stepReady s
  | .suspended => stepReady (s.setRs .ready)
  | .halted => .next s
  | .faulted => .fault (.faulted s.fc)

/-- `s` with the instruction whose bits are `w` where `step` fetches its next instruction (log entry 13). -/
def State.withFetchWord (s : State) (nbits w : Nat) : State := placeAtIp s (tableCells nbits w)

end Sys2Proof.Machine
end

