-- ==== Sys2Proof/Machine/HostOps.lean ====
section
/-! DEFINITION. Reset and the host operations that take no step (spec/49_run_and_host.md R163, R169 to R174;
spec/70_reset_and_hazards.md R240, R241). The host has no operation that writes `M`, `IP` or `RB`, and none that clears
a fault (R163, R185). -/

namespace Sys2Proof.Machine

/-- The non-zero cells of an image that starts at address `a`. -/
def imageCells : Nat → List Word → List (Nat × Word)
  | _, [] => []
  | a, w :: ws => if w = 0#64 then imageCells (a + 1) ws else (a, w) :: imageCells (a + 1) ws

/-- `max(len(img), minMemorySize)`, or `len(img)` when `minMemorySize` is absent (spec/70_reset_and_hazards.md R240). -/
def resetSize (img : List Word) (minMemorySize : Option Nat) : Nat := max img.length (minMemorySize.getD 0)

/-- `Reset(img, minMemorySize)`, the source's `new` (spec/70_reset_and_hazards.md R240, R241): a fresh instance, or the
refusal `CapacityExceeded(size)`. -/
def construct (p : Params) (img : List Word) (minMemorySize : Option Nat) : Except Trap State :=
  if p.memMax < resetSize img minMemorySize then .error ⟨.capacityExceeded, resetSize img minMemorySize⟩
  else
    .ok { State.reset with
          mem := { cells := imageCells 0 img, len := resetSize img minMemorySize }, params := p }

/-- `setInboundQueue(queue)` (spec/49_run_and_host.md R171, log entry 10). -/
def setInboundQueue (q : List Word) (s : State) : State := s.setQin q

/-- Feeding one value (spec/49_run_and_host.md R170): allowed in every run state, changes only `Qin`. -/
def pushInbound (v : Word) (s : State) : State := s.pushIn v

/-- Feeding several values, in order. -/
def pushAll (q : List Word) (s : State) : State := q.foldl State.pushIn s

/-- Registering an observer, or removing it (spec/49_run_and_host.md R172). -/
def setObserver (c : Option Consumer) (s : State) : State := { s with obs := c }

/-- `drainOutbound()` (spec/49_run_and_host.md R173): all of `Qout`, oldest first, which is left empty. -/
def drainOutbound (s : State) : List Word × State := (s.qout, { s with qout := [] })

/-- `memorySnapshot()` (spec/49_run_and_host.md R174, spec/20_memory.md R66): cells 0 to `len(M) - 1`; changes nothing. -/
def memorySnapshot (s : State) : List Word := (List.range s.mem.len).map s.mem.get

end Sys2Proof.Machine
end

