-- ==== Sys2Proof/Machine/Run.lean ====
section
/-! DEFINITION. The run loop and its outcomes (spec/49_run_and_host.md R164 to R168, R184), and the host operations of
R163 as one type of events. -/

namespace Sys2Proof.Machine

/-- What `run` returns (spec/49_run_and_host.md R166). `outOfSteps` is the executor's own answer when the bound it was
given is used up (R167): it says nothing about the machine. `refused` is never the answer (no instruction is refused). -/
inductive RunOutcome where
  | halted
  | suspended
  | fault (record : Option FaultRecord)
  | cancelled
  | outOfSteps
  | refused (r : Refusal)
  deriving DecidableEq, Repr

/-- The outcome with which a step that left the state `t` ends the run, if it does (spec/49_run_and_host.md R165, R184). -/
def stopOf (t : State) : Option RunOutcome :=
  match t.rs with
  | .ready => none
  | .suspended => some .suspended
  | .halted => some .halted
  | .faulted => some (.fault t.fc)

/-- The loop of R165. `cancel` is the cancellation signal as it is sampled once before each step (R168); its length is
the executor's bound on the number of steps (R167). -/
def runLoop : List Bool → State → RunOutcome × State
  | [], s => (.outOfSteps, s)
  | true :: _, s => (.cancelled, s)
  | false :: cancel, s =>
    match step s with
    | .fault (.faulted r) => (.fault r, s)
    | .refused r => (.refused r, s)
    | .next t =>
      match stopOf t with
      | some r => (r, t)
      | none => runLoop cancel t

/-- `run(cancellation)` (spec/49_run_and_host.md R164, R165). -/
def run (cancel : List Bool) (s : State) : RunOutcome × State :=
  match s.rs with
  | .halted => (.halted, s)
  | .faulted => (.fault s.fc, s)
  | .ready | .suspended => runLoop cancel (s.setRs .ready)

/-- The operations a host can invoke on an instance (spec/49_run_and_host.md R163). -/
inductive HostOp where
  | new (img : List Word) (minMemorySize : Option Nat)
  | setInboundQueue (q : List Word)
  | push (v : Word)
  | setObserver (c : Option Consumer)
  | run (cancel : List Bool)
  | drainOutbound
  | memorySnapshot
  deriving DecidableEq, Repr

/-- What a host operation returns. -/
inductive Reply where
  | unit
  | outcome (r : RunOutcome)
  | values (q : List Word)
  | refusedReset (t : Trap)
  deriving DecidableEq, Repr

/-- A host operation on an instance, between steps (spec/49_run_and_host.md R163, R169). `new` answers the fresh
instance of the same parameters, or keeps the old one when it is refused (R241: "no instance is made"). -/
def hostOp (op : HostOp) (s : State) : Reply × State :=
  match op with
  | .new img minMemorySize =>
    match construct s.params img minMemorySize with
    | .ok t => (.unit, t)
    | .error t => (.refusedReset t, s)
  | .setInboundQueue q => (.unit, Machine.setInboundQueue q s)
  | .push v => (.unit, pushInbound v s)
  | .setObserver c => (.unit, Machine.setObserver c s)
  | .run cancel => (.outcome (run cancel s).1, (run cancel s).2)
  | .drainOutbound => (.values (Machine.drainOutbound s).1, (Machine.drainOutbound s).2)
  | .memorySnapshot => (.values (Machine.memorySnapshot s), s)

end Sys2Proof.Machine
end

