-- ==== Sys2Proof/Machine/Topology.lean ====
section
/-! DEFINITION. The topology harness (spec/49_run_and_host.md R176 to R183): several instances, wired by links. A link is
an observer registration `Consumer.vm j`; the bridge of R178 is part of the output instruction's step. -/

namespace Sys2Proof.Machine

/-- The bridge (spec/49_run_and_host.md R178): each notified value is pushed to the inbound queue of the linked
instance. What a consumer outside the topology does with a value is its own affair. A link to an index that no
instance has pushes nothing (DESIGN CHOICE, safe; log entry 20). -/
def deliver : List Notice → List State → List State
  | [], vms => vms
  | n :: ns, vms =>
    match n.consumer with
    | .vm j => deliver ns (vms.modify j (State.pushIn · n.value))
    | .outside _ => deliver ns vms

/-- One step of instance `i` with its notifications bridged, as one transition of the system. An index that no instance
has changes nothing (log entry 20). -/
def stepVm (i : Nat) (vms : List State) : Host.Outcome (List State) Fault Refusal :=
  match vms[i]? with
  | none => .next vms
  | some s =>
    match step s with
    | .next t => .next (deliver (t.notices.drop s.notices.length) (vms.set i t))
    | .fault r => .fault r
    | .refused r => .refused r

/-- The loop of `run` on instance `i` (spec/49_run_and_host.md R165), at most `bound` steps. -/
def runVmLoop : Nat → Nat → List State → RunOutcome × List State
  | 0, _, vms => (.outOfSteps, vms)
  | bound + 1, i, vms =>
    match stepVm i vms with
    | .fault (.faulted r) => (.fault r, vms)
    | .refused r => (.refused r, vms)
    | .next vms' =>
      match vms'[i]?.bind stopOf with
      | some r => (r, vms')
      | none => runVmLoop bound i vms'

/-- `run(V[i])` (spec/49_run_and_host.md R164, R165). An index that no instance has answers `outOfSteps` and changes
nothing (log entry 20). -/
def runVm (bound i : Nat) (vms : List State) : RunOutcome × List State :=
  match vms[i]? with
  | none => (.outOfSteps, vms)
  | some s =>
    match s.rs with
    | .halted => (.halted, vms)
    | .faulted => (.fault s.fc, vms)
    | .ready | .suspended => runVmLoop bound i (vms.set i (s.setRs .ready))

/-- The observer registrations of a wiring, from instance number `k` on. -/
def linkFrom (wiring : Nat → Option Consumer) : Nat → List State → List State
  | _, [] => []
  | k, s :: rest => setObserver (wiring k) s :: linkFrom wiring (k + 1) rest

/-- The links of the linear pipeline of `n` instances (spec/49_run_and_host.md R179). -/
def pipelineWiring (n i : Nat) : Option Consumer := if i + 1 < n then some (.vm (i + 1)) else none

/-- The links of the feedback loop of `n` instances (spec/49_run_and_host.md R180). -/
def ringWiring (n i : Nat) : Option Consumer := some (.vm ((i + 1) % n))

/-- What a driver reports. `outOfSteps` is the executor's own (spec/49_run_and_host.md R167). -/
inductive NetOutcome where
  /-- The pipeline's "final output", `V[n-1].Qout` (R179). -/
  | output (q : List Word)
  /-- The feedback loop's final signal (R181). -/
  | signal (v : Word)
  /-- All halted, and the last instance never output anything (R181). -/
  | noSignal
  /-- `Deadlock` (R182). -/
  | deadlock
  /-- A fault of an instance, propagated. -/
  | fault (record : Option FaultRecord)
  /-- Reset refused (spec/70_reset_and_hazards.md R241). -/
  | refusedReset (t : Trap)
  | outOfSteps
  deriving DecidableEq, Repr

/-- `V[n-1].Qout`. With no instances (n = 0) there is no `V[n-1]` and the spec says nothing: the empty queue is the
model's choice (DESIGN CHOICE, unsafe; log entry 19). -/
def lastQout (vms : List State) : List Word :=
  match vms.getLast? with
  | none => []
  | some s => s.qout

/-- The runs of a pipeline, strictly in order (spec/49_run_and_host.md R179). -/
def pipelineLoop (bound : Nat) : List Nat → List State → NetOutcome × List State
  | [], vms => (.output (lastQout vms), vms)
  | i :: rest, vms =>
    match runVm bound i vms with
    | (.halted, vms') => pipelineLoop bound rest vms'
    | (.suspended, vms') => (.deadlock, vms')
    | (.fault r, vms') => (.fault r, vms')
    | (.cancelled, vms') | (.outOfSteps, vms') | (.refused _, vms') => (.outOfSteps, vms')

/-- The pipeline after its links and preloads, before the first `run` (spec/49_run_and_host.md R179). -/
def pipelineStart (s : State) (pre : List (List Word)) : List State :=
  linkFrom (pipelineWiring pre.length) 0 (pre.map (fun q => pushAll q s))

/-- `Pipeline(img, n, pre)` (spec/49_run_and_host.md R179); `n` is the length of `pre`. What it answers for n = 0 is
the model's choice (log entry 19). -/
def pipeline (p : Params) (img : List Word) (pre : List (List Word)) (bound : Nat) : NetOutcome × List State :=
  match construct p img none with
  | .error t => (.refusedReset t, [])
  | .ok s => pipelineLoop bound (List.range pre.length) (pipelineStart s pre)

/-- `Deadlocked()` (spec/49_run_and_host.md R182). -/
def deadlocked (vms : List State) : Bool :=
  !vms.all (fun s => s.rs == .halted) && vms.all (fun s => s.rs == .halted || (s.rs == .suspended && s.qin.isEmpty))

/-- `FinalSignal()` (spec/49_run_and_host.md R181). `noSignal` for no instances (n = 0) is the model's choice (log entry
19). -/
def finalSignal (vms : List State) : NetOutcome :=
  match (lastQout vms).getLast? with
  | none => .noSignal
  | some v => .signal v

/-- One round: `run` on each instance in index order; a fault, or the executor's bound, ends it. -/
def roundLoop (bound : Nat) : List Nat → List State → Option NetOutcome × List State
  | [], vms => (none, vms)
  | i :: rest, vms =>
    match runVm bound i vms with
    | (.halted, vms') | (.suspended, vms') => roundLoop bound rest vms'
    | (.fault r, vms') => (some (.fault r), vms')
    | (.cancelled, vms') | (.outOfSteps, vms') | (.refused _, vms') => (some .outOfSteps, vms')

/-- The rounds of a feedback loop (spec/49_run_and_host.md R180), at most `rounds` of them. -/
def feedbackRounds (bound : Nat) : Nat → List State → NetOutcome × List State
  | 0, vms => (.outOfSteps, vms)
  | rounds + 1, vms =>
    match roundLoop bound (List.range vms.length) vms with
    | (some r, vms') => (r, vms')
    | (none, vms') =>
      if vms'.all (fun s => s.rs == .halted) then (finalSignal vms', vms')
      else if deadlocked vms' then (.deadlock, vms')
      else feedbackRounds bound rounds vms'

/-- The feedback loop after its links and preloads, before the first round (spec/49_run_and_host.md R180): each phase,
and after `phase[0]` the seed for instance 0. -/
def feedbackStart (s : State) (phases : List Word) (seed : Word) : List State :=
  (linkFrom (ringWiring phases.length) 0 (phases.map (fun v => s.pushIn v))).modify 0 (State.pushIn · seed)

/-- `FeedbackLoop(img, n, phase, seed)` (spec/49_run_and_host.md R180); `n` is the length of `phases`. What it answers
for n = 0 is the model's choice (log entry 19). -/
def feedbackLoop (p : Params) (img : List Word) (phases : List Word) (seed : Word) (rounds bound : Nat) :
    NetOutcome × List State :=
  match construct p img none with
  | .error t => (.refusedReset t, [])
  | .ok s => feedbackRounds bound rounds (feedbackStart s phases seed)

/-- The next instruction is an input and `Qin` is empty (spec/49_run_and_host.md R175). -/
def waiting (s : State) : Bool := atInput s && s.qin.isEmpty

/-- Whether an instance has an enabled step (spec/49_run_and_host.md R175, R183): it is not `HALTED` or `FAULTED`, and
it does not wait for input. -/
def enabled (s : State) : Bool := (s.rs == .ready || s.rs == .suspended) && !waiting s

/-- The concurrent alternative (spec/49_run_and_host.md R183): the instances take steps in the order of a schedule; an
entry whose instance has no enabled step changes nothing. -/
def runSchedule : List Nat → List State → List State
  | [], vms => vms
  | i :: rest, vms =>
    if (vms[i]?.map enabled).getD false then
      match stepVm i vms with
      | .next vms' => runSchedule rest vms'
      | .fault _ | .refused _ => runSchedule rest vms
    else runSchedule rest vms

end Sys2Proof.Machine
end

