-- ==== Sys2Proof/Safety.lean ====
section
/-! DEFINITION. What counts as a safe run, and the invariant of the machine, in the terms the statements use. -/

namespace Sys2Proof.Machine

/-- What holds of an instance in every state it can reach: Memory is in its canonical form and no longer than `MEM_MAX`
(spec/10_state.md R20), `MEM_MAX` is in its range (spec/00_scope.md R5), the fault record is set exactly when the
instance is `FAULTED` (spec/10_state.md R28, R29), it names the instruction `IP` still points at
(spec/60_exceptions.md R206), and a `SUSPENDED` instance stands at an input (spec/41_io.md R121). -/
abbrev State.Inv (s : State) : Prop :=
  s.mem.wf ∧ s.params.Wf ∧ s.mem.len ≤ s.params.memMax ∧ (s.rs = .faulted ↔ s.fc.isSome) ∧
    (∀ r ∈ s.fc, r.ip = s.ip) ∧ (s.rs = .suspended → atInput s = true)

/-- A parameter that `Rd` reads without a fault: immediate, or an address in range (spec/30_encoding.md R90,
spec/20_memory.md R56). -/
def Readable (s : State) (p : Param) : Prop :=
  ∀ a, paramAddr s.rb p = some a → 0 ≤ a ∧ a < s.params.memMax

/-- What `Rd` answers for it (spec/30_encoding.md R90). -/
def operandValue (s : State) (p : Param) : Word :=
  match paramAddr s.rb p with
  | none => p.cell
  | some a => s.mem.get a.toNat

/-- The least length of Memory that holds the cell a parameter names: what a read of it leaves at least
(spec/20_memory.md R57). 0 in immediate mode. -/
def cellEnd (s : State) (p : Param) : Nat :=
  match paramAddr s.rb p with
  | none => 0
  | some a => a.toNat + 1

/-- `d` is the address a write parameter names, and it is in range (spec/30_encoding.md R91). -/
def WritesTo (s : State) (p : Param) (d : Nat) : Prop :=
  paramAddr s.rb p = some (d : Int) ∧ d < s.params.memMax

/-- An instance that `run` lets take a step (spec/49_run_and_host.md R165). -/
def Runnable (s : State) : Prop := s.rs = .ready ∨ s.rs = .suspended

/-- No fault has been raised (spec/49_run_and_host.md R184: `FAULTED` is the abnormal end). -/
abbrev State.Safe (s : State) : Prop := s.rs ≠ .faulted

/-- A run is safe for `n` steps when no step of it ends in a fault or a refusal, and none leaves a fault recorded. -/
def SafeFor : Nat → State → Prop
  | 0, s => s.Safe
  | n + 1, s => s.Safe ∧ ∃ t, step s = .next t ∧ SafeFor n t

end Sys2Proof.Machine
end

