-- ==== Sys2Proof/Certificates/Slice0/Obligations.lean ====
section
/-! DEFINITION. The statements about the machine, each from a numbered rule of the spec. -/

namespace Sys2Proof.Machine

/-! ### Words the statements use -/

/-- `t` is `s` after an instruction of format F3 that stored into cell `d`: `IP` advanced by 4, no other register and no
other cell changed, Memory as long as the cells read and written need (spec/20_memory.md R57). -/
def StoredF3 (s t : State) (a b : Param) (d : Nat) : Prop :=
  t = { s with mem := t.mem, ip := s.ip + 4#64 } ∧ (∀ c, c ≠ d → t.mem.get c = s.mem.get c) ∧
    t.mem.len = max (max (max s.mem.len (cellEnd s a)) (cellEnd s b)) (d + 1)

/-- Memory is `s`'s but for its length, which is `n`. -/
def OnlyGrewTo (s t : State) (n : Nat) : Prop := (∀ c, t.mem.get c = s.mem.get c) ∧ t.mem.len = n

/-- The fault of an address outside the range: `OutOfBounds` below 0, else `CapacityExceeded`
(spec/20_memory.md R56). -/
def addressTrap (a : Int) : Trap := ⟨if a < 0 then .outOfBounds else .capacityExceeded, a⟩

/-- A data address that no access may use. -/
def BadAddress (s : State) (a : Int) : Prop := a < 0 ∨ (s.params.memMax : Int) ≤ a

/-- The parameter an instruction reads first, if it reads one. -/
def firstRead : Instr → Option Param
  | .add a _ _ _ | .multiply a _ _ _ | .lessThan a _ _ _ | .equals a _ _ _ => some a
  | .jumpIfTrue a _ _ | .jumpIfFalse a _ _ => some a
  | .output a _ | .adjustRelativeBase a _ => some a
  | .input _ _ | .halt _ => none

/-- The parameter an instruction reads second in the state `s`: a jump reads it only when it is taken
(spec/42_jumps.md R130, R131). -/
def secondRead (s : State) : Instr → Option Param
  | .add _ b _ _ | .multiply _ b _ _ | .lessThan _ b _ _ | .equals _ b _ _ => some b
  | .jumpIfTrue a b _ => if operandValue s a ≠ 0#64 then some b else none
  | .jumpIfFalse a b _ => if operandValue s a = 0#64 then some b else none
  | .output _ _ | .adjustRelativeBase _ _ | .input _ _ | .halt _ => none

/-- The write parameter of an instruction, if it has one (spec/30_encoding.md R84). -/
def writeParam : Instr → Option Param
  | .add _ _ dst _ | .multiply _ _ dst _ | .lessThan _ _ dst _ | .equals _ _ dst _ | .input dst _ => some dst
  | .jumpIfTrue _ _ _ | .jumpIfFalse _ _ _ | .output _ _ | .adjustRelativeBase _ _ | .halt _ => none

/-- The exact result an instruction passes through `chk64`, if it has one (spec/40_arithmetic.md R113). -/
def exactResult (s : State) : Instr → Option Int
  | .add a b _ _ => some ((operandValue s a).toInt + (operandValue s b).toInt)
  | .multiply a b _ _ => some ((operandValue s a).toInt * (operandValue s b).toInt)
  | .adjustRelativeBase a _ => some (s.rb.toInt + (operandValue s a).toInt)
  | .lessThan _ _ _ _ | .equals _ _ _ _ | .jumpIfTrue _ _ _ | .jumpIfFalse _ _ _ => none
  | .output _ _ | .input _ _ | .halt _ => none

/-- The value an instruction writes when it writes one (spec/40_arithmetic.md R111, R112; spec/41_io.md R120;
spec/43_compare.md R140, R141). -/
def writtenValue (s : State) : Instr → Option Word
  | .add a b _ _ => some (BitVec.ofInt 64 ((operandValue s a).toInt + (operandValue s b).toInt))
  | .multiply a b _ _ => some (BitVec.ofInt 64 ((operandValue s a).toInt * (operandValue s b).toInt))
  | .lessThan a b _ _ => some (if (operandValue s a).toInt < (operandValue s b).toInt then 1#64 else 0#64)
  | .equals a b _ _ => some (if (operandValue s a).toInt = (operandValue s b).toInt then 1#64 else 0#64)
  | .input _ _ => s.qin.head?
  | .jumpIfTrue _ _ _ | .jumpIfFalse _ _ _ | .output _ _ | .adjustRelativeBase _ _ | .halt _ => none

/-- The fault of accessing address `a` as data, if it has one. -/
def accessTrap (s : State) (a : Int) : Option Trap :=
  if a < 0 ∨ (s.params.memMax : Int) ≤ a then some (addressTrap a) else none

/-- The fault of reading a parameter. -/
def readTrap (s : State) (p : Param) : Option Trap := (paramAddr s.rb p).bind (accessTrap s)

/-- The fault of a write parameter of the instruction `i`. -/
def writeTrap (s : State) (i : Instr) (p : Param) : Option Trap :=
  match paramAddr s.rb p with
  | none => some ⟨.invalidWriteTarget, i.wordNat⟩
  | some a => accessTrap s a

/-- The fault of the result. -/
def overflowTrap (s : State) (i : Instr) : Option Trap :=
  (exactResult s i).bind fun v =>
    if ¬InI64 v ∧ s.params.overflowMode = .fault then some ⟨.arithmeticOverflow, v⟩ else none

/-- Points 5 to 8 of spec/60_exceptions.md R205: an input on an empty queue tests nothing more; else the first of the
read parameters in order, the write parameter, and the result, that has a fault. -/
def effectTrap (i : Instr) (s : State) : Option Trap :=
  match i, s.qin with
  | .input _ _, [] => none
  | _, _ =>
    (((firstRead i).bind (readTrap s)).or ((secondRead s i).bind (readTrap s))).or
      (((writeParam i).bind (writeTrap s i)).or (overflowTrap s i))

/-- The causes an instruction can raise after its decoding (spec/60_exceptions.md R200, "raised by"). -/
def causesOf : Instr → List Cause
  | .add _ _ _ _ | .multiply _ _ _ _ => [.outOfBounds, .capacityExceeded, .invalidWriteTarget, .arithmeticOverflow]
  | .lessThan _ _ _ _ | .equals _ _ _ _ | .input _ _ => [.outOfBounds, .capacityExceeded, .invalidWriteTarget]
  | .adjustRelativeBase _ _ => [.outOfBounds, .capacityExceeded, .arithmeticOverflow]
  | .jumpIfTrue _ _ _ | .jumpIfFalse _ _ _ | .output _ _ => [.outOfBounds, .capacityExceeded]
  | .halt _ => []

/-- The parameter count of an opcode (spec/30_encoding.md R84). -/
def paramCount : Nat → Option Nat
  | 1 | 2 | 7 | 8 => some 3
  | 5 | 6 => some 2
  | 3 | 4 | 9 => some 1
  | 99 => some 0
  | _ => none

/-- The table of spec/10_state.md R24 for a step that raises no fault: `IP` after the instruction `i`. -/
def ipAfter (i : Instr) (s : State) : Int :=
  match i with
  | .add _ _ _ _ | .multiply _ _ _ _ | .lessThan _ _ _ _ | .equals _ _ _ _ => s.ip.toInt + 4
  | .input _ _ => if s.qin = [] then s.ip.toInt else s.ip.toInt + 2
  | .output _ _ | .adjustRelativeBase _ _ => s.ip.toInt + 2
  | .jumpIfTrue a b _ => if operandValue s a ≠ 0#64 then (operandValue s b).toInt else s.ip.toInt + 3
  | .jumpIfFalse a b _ => if operandValue s a = 0#64 then (operandValue s b).toInt else s.ip.toInt + 3
  | .halt _ => s.ip.toInt

/-- Each inbound queue of a topology has one producer (spec/10_state.md R33). -/
def SingleProducer (vms : List State) : Prop :=
  ∀ (i j k : Nat) (s u : State), vms[i]? = some s → vms[j]? = some u → s.obs = some (.vm k) →
    u.obs = some (.vm k) → i = j

/-- No instance has an enabled step. -/
def AtRest (vms : List State) : Prop := ∀ s ∈ vms, enabled s = false

end Sys2Proof.Machine

open Sys2Proof Sys2Proof.Machine

/-! ### Encoding -/

/-- The words that spec/95_test_vectors.md writes out decode to the instructions they stand for. -/
def Obligations.DecodesTheWordsOfTheSpec : Prop :=
  decode [1002#64, 4#64, 3#64, 4#64] =
      .ok (.multiply ⟨.position, 4#64⟩ ⟨.immediate, 3#64⟩ ⟨.position, 4#64⟩ 0, []) ∧
    decode [21101#64, 3#64, 4#64, 2#64] =
      .ok (.add ⟨.immediate, 3#64⟩ ⟨.immediate, 4#64⟩ ⟨.relative, 2#64⟩ 0, []) ∧
    decode [203#64, 8#64] = .ok (.input ⟨.relative, 8#64⟩ 0, []) ∧
    decode [104#64, 5#64] = .ok (.output ⟨.immediate, 5#64⟩ 0, []) ∧
    decode [2205#64, 1#64, 2#64] = .ok (.jumpIfTrue ⟨.relative, 1#64⟩ ⟨.relative, 2#64⟩ 0, []) ∧
    decode [1006#64, 101#64, 0#64] = .ok (.jumpIfFalse ⟨.position, 101#64⟩ ⟨.immediate, 0#64⟩ 0, []) ∧
    decode [1107#64, 7#64, 8#64, 3#64] =
      .ok (.lessThan ⟨.immediate, 7#64⟩ ⟨.immediate, 8#64⟩ ⟨.position, 3#64⟩ 0, []) ∧
    decode [8#64, 9#64, 10#64, 9#64] =
      .ok (.equals ⟨.position, 9#64⟩ ⟨.position, 10#64⟩ ⟨.position, 9#64⟩ 0, []) ∧
    decode [109#64, 1#64] = .ok (.adjustRelativeBase ⟨.immediate, 1#64⟩ 0, []) ∧
    decode [22299#64] = .ok (.halt 222, [])

/-- Decoding an encoded well-formed instruction gives it back, every operand and every digit. -/
def Obligations.DecodeInvertsEncode : Prop :=
  ∀ (i : Instr) (rest : List Word), i.wf = true → decode (encode i ++ rest) = .ok (i, rest)

/-- What decodes is well formed and encodes to the cells it was read from: each word has one meaning. -/
def Obligations.EncodeInvertsDecode : Prop :=
  ∀ (cells rest : List Word) (i : Instr), decode cells = .ok (i, rest) → i.wf = true ∧ encode i ++ rest = cells

/-- The order and the outcome of decoding for every instruction word and any cells after it (spec/30_encoding.md R87;
the partition of R93). `n` is the opcode's parameter count. Decided by the spec: D8, D9, D10. -/
def Obligations.DecodePartitionsTheWords : Prop :=
  decode [] = .error .noWord ∧
  ∀ (w : Word) (cells : List Word),
    (w.toInt < 0 → decode (w :: cells) = .error (.unsupportedOpcode w)) ∧
    (0 ≤ w.toInt → paramCount (w.toNat % 100) = none → decode (w :: cells) = .error (.unsupportedOpcode w)) ∧
    ∀ n, 0 ≤ w.toInt → paramCount (w.toNat % 100) = some n →
      ((∃ k, k < n ∧ 2 < dig w.toNat (2 + k)) → decode (w :: cells) = .error (.unsupportedAddressingMode w)) ∧
      ((∀ k, k < n → dig w.toNat (2 + k) ≤ 2) → cells.length < n →
        decode (w :: cells) = .error (.noParameter cells.length)) ∧
      ((∀ k, k < n → dig w.toNat (2 + k) ≤ 2) → n ≤ cells.length →
        ∃ i, decode (w :: cells) = .ok (i, cells.drop n) ∧ i.opcode = w.toNat % 100 ∧
          i.params.map Param.cell = cells.take n ∧
          (∀ (k : Nat) (p : Param), i.params[k]? = some p → p.mode.digit = dig w.toNat (2 + k)) ∧
          i.high = w.toNat / 10 ^ (2 + n))

/-- Digits above the mode digit of the last parameter have no effect (spec/30_encoding.md R83): words that differ in
them only decode to instructions that differ in `high` only, and such instructions have the same effect, but for the
instruction word that a write-target fault records (R91, R200). Decided by the spec: D9 (all but halt). -/
def Obligations.UnexaminedDigitsHaveNoEffect : Prop :=
  (∀ (w w' : Word) (n : Nat) (cells rest : List Word) (i : Instr), 0 ≤ w'.toInt →
    paramCount (w.toNat % 100) = some n → w.toNat % 10 ^ (2 + n) = w'.toNat % 10 ^ (2 + n) →
    decode (w :: cells) = .ok (i, rest) → ∃ h, decode (w' :: cells) = .ok (i.withHigh h, rest)) ∧
  ∀ (i : Instr) (h : Nat) (s t : State), exec i s = .next t →
    exec (i.withHigh h) s = .next t ∨
      (t = s.raise ⟨.invalidWriteTarget, i.wordNat⟩ ∧
        exec (i.withHigh h) s = .next (s.raise ⟨.invalidWriteTarget, (i.withHigh h).wordNat⟩))

/-! ### Reset and host operations -/

/-- Reset sets every piece of the spec's state (spec/70_reset_and_hazards.md R240) and the model's own two fields, the
parameters it was given and no notification (log entries 1 and 6), and is refused when the image or the requested size
does not fit (R241). Decided by the spec: D12, D18, D27. -/
def Obligations.ResetSetsEveryPieceOfState : Prop :=
  ∀ (p : Params) (img : List Word) (minMemorySize : Option Nat),
    (p.memMax < max img.length (minMemorySize.getD 0) →
      construct p img minMemorySize =
        .error ⟨.capacityExceeded, (max img.length (minMemorySize.getD 0) : Nat)⟩) ∧
    (max img.length (minMemorySize.getD 0) ≤ p.memMax → ∃ s, construct p img minMemorySize = .ok s ∧
      s.mem.len = max img.length (minMemorySize.getD 0) ∧
      (∀ (k : Nat) (v : Word), img[k]? = some v → s.mem.get k = v) ∧
      (∀ k, img.length ≤ k → s.mem.get k = 0#64) ∧
      s.ip = 0#64 ∧ s.rb = 0#64 ∧ s.qin = [] ∧ s.qout = [] ∧ s.obs = none ∧ s.rs = .ready ∧ s.fc = none ∧
      s.params = p ∧ s.notices = [])

/-- The model's reset state is reset from the empty image with the default parameters: which image stands for "the
machine right after reset" is the model's choice (log entry 5). -/
def Obligations.ResetStateIsTheEmptyImage : Prop := construct Params.default [] none = .ok State.reset

/-- A snapshot before any run gives the image back, extended with zeros to `minMemorySize` and no further. -/
def Obligations.SnapshotAfterResetIsTheImage : Prop :=
  ∀ (p : Params) (img : List Word) (minMemorySize : Option Nat) (s : State),
    construct p img minMemorySize = .ok s →
    memorySnapshot s = img ++ List.replicate (minMemorySize.getD 0 - img.length) 0#64

/-- A snapshot reads all of `M` and changes nothing (spec/20_memory.md R66). -/
def Obligations.SnapshotReadsAllOfMemory : Prop :=
  ∀ s : State, ∃ q, hostOp .memorySnapshot s = (.values q, s) ∧ q.length = s.mem.len ∧
    ∀ k, k < s.mem.len → q[k]? = some (s.mem.get k)

/-- Draining gives all of `Qout`, oldest first, and empties it; nothing else changes (spec/49_run_and_host.md R173).
Decided by the spec: D20. -/
def Obligations.DrainEmptiesTheOutboundQueue : Prop :=
  ∀ s : State, hostOp .drainOutbound s = (.values s.qout, { s with qout := [] })

/-- A push appends to `Qin` in every run state and changes nothing else, the run state included
(spec/49_run_and_host.md R170). -/
def Obligations.PushAppendsToTheInboundQueue : Prop :=
  ∀ (v : Word) (s : State), hostOp (.push v) s = (.unit, { s with qin := s.qin ++ [v] })

/-- `setInboundQueue` replaces `Qin` and registering an observer sets `OBS`; nothing else changes
(spec/49_run_and_host.md R171, R172). Decided by the spec: D19, D32. -/
def Obligations.QueueAndObserverAreReplaced : Prop :=
  ∀ (q : List Word) (c : Option Consumer) (s : State),
    hostOp (.setInboundQueue q) s = (.unit, { s with qin := q }) ∧ hostOp (.setObserver c) s = (.unit, { s with obs := c })

/-- `HALTED` is final: a step changes nothing, every `run` returns `Halted` and changes nothing, and no host operation
but reset leaves it (spec/45_halt.md R156). Decided by the spec: D15. What `step` answers there is the model's (log
entry 3). -/
def Obligations.HaltedIsFinal : Prop :=
  ∀ s : State, s.rs = .halted →
    step s = .next s ∧ (∀ cancel, run cancel s = (.halted, s)) ∧
    ∀ op, (∀ img n, op ≠ .new img n) → (hostOp op s).2.rs = .halted

/-- `FAULTED` is final: no step is taken, every `run` reports the record again and changes nothing, and no host
operation but reset clears it (spec/60_exceptions.md R213). Decided by the spec: D16. What `step` answers there is the
model's (log entry 3). -/
def Obligations.FaultedIsFinal : Prop :=
  ∀ s : State, s.rs = .faulted →
    step s = .fault (.faulted s.fc) ∧ (∀ cancel, run cancel s = (.fault s.fc, s)) ∧
    ∀ op, (∀ img n, op ≠ .new img n) → (hostOp op s).2.rs = .faulted ∧ (hostOp op s).2.fc = s.fc

/-! ### Operands and the result check -/

/-- `CheckAddr` (spec/20_memory.md R56), a relative-mode sum beyond 64 bits included. Decided by the spec: D3. -/
def Obligations.AddressCheckIsExact : Prop :=
  ∀ (p : Params) (a : Int),
    (a < 0 → checkAddr p a = .error ⟨.outOfBounds, a⟩) ∧
    (0 ≤ a → (p.memMax : Int) ≤ a → checkAddr p a = .error ⟨.capacityExceeded, a⟩) ∧
    (0 ≤ a → a < p.memMax → checkAddr p a = .ok a.toNat) ∧
    (p.Wf → 2 ^ 63 ≤ a → checkAddr p a = .error ⟨.capacityExceeded, a⟩)

/-- A read parameter by its mode (spec/30_encoding.md R90): the literal, or the cell at the parameter or at `RB` plus
the parameter, the sum exact; a cell at or beyond the end reads 0 and Memory then has exactly one cell more than its
address (spec/20_memory.md R53, R57). Decided by the spec: D3 (`CapacityExceeded`), D6 (how far Memory grows). -/
def Obligations.ReadParameterByMode : Prop :=
  ∀ (s : State) (c : Word), s.mem.wf →
    rd s s.mem ⟨.immediate, c⟩ = .ok (c, s.mem) ∧
    ∀ (p : Param) (a : Int), (p = ⟨.position, c⟩ ∧ a = c.toInt ∨ p = ⟨.relative, c⟩ ∧ a = s.rb.toInt + c.toInt) →
      (BadAddress s a → rd s s.mem p = .error (addressTrap a)) ∧
      (¬BadAddress s a → ∃ m, rd s s.mem p = .ok (s.mem.get a.toNat, m) ∧ (∀ k, m.get k = s.mem.get k) ∧
        (a < s.mem.len → m.len = s.mem.len) ∧
        (s.mem.len ≤ a → m.len = a + 1 ∧ s.mem.get a.toNat = 0#64))

/-- `chk64` (spec/40_arithmetic.md R110). Decided by the spec: D4. -/
def Obligations.ResultCheckKeepsOrFaultsOrWraps : Prop :=
  ∀ (p : Params) (v : Int),
    (-2 ^ 63 ≤ v ∧ v ≤ 2 ^ 63 - 1 → ∃ w, chk64 p v = .ok w ∧ w.toInt = v) ∧
    (¬(-2 ^ 63 ≤ v ∧ v ≤ 2 ^ 63 - 1) → p.overflowMode = .fault → chk64 p v = .error ⟨.arithmeticOverflow, v⟩) ∧
    (¬(-2 ^ 63 ≤ v ∧ v ≤ 2 ^ 63 - 1) → p.overflowMode = .wrap →
      ∃ w, chk64 p v = .ok w ∧ w.toInt = (v + 2 ^ 63) % 2 ^ 64 - 2 ^ 63)

/-! ### The instructions: result, completion, frame -/

/-- add (spec/40_arithmetic.md R111): on readable operands, a destination in range and a sum that fits, the exact sum
is stored, `IP` advances by 4 and nothing else changes. Decided by the spec: D6 (how far Memory grows). -/
def Obligations.AddStoresTheExactSum : Prop :=
  ∀ (a b dst : Param) (high d : Nat) (s : State), s.Inv → Readable s a → Readable s b → WritesTo s dst d →
    InI64 ((operandValue s a).toInt + (operandValue s b).toInt) →
    ∃ t, exec (.add a b dst high) s = .next t ∧ StoredF3 s t a b d ∧
      (t.mem.get d).toInt = (operandValue s a).toInt + (operandValue s b).toInt

/-- multiply (spec/40_arithmetic.md R112): as add, with the exact product. Decided by the spec: D6. -/
def Obligations.MultiplyStoresTheExactProduct : Prop :=
  ∀ (a b dst : Param) (high d : Nat) (s : State), s.Inv → Readable s a → Readable s b → WritesTo s dst d →
    InI64 ((operandValue s a).toInt * (operandValue s b).toInt) →
    ∃ t, exec (.multiply a b dst high) s = .next t ∧ StoredF3 s t a b d ∧
      (t.mem.get d).toInt = (operandValue s a).toInt * (operandValue s b).toInt

/-- less-than (spec/43_compare.md R140): 1 or 0 by the signed comparison; never an overflow. Decided by the spec: D6.
-/
def Obligations.LessThanStoresItsTruthValue : Prop :=
  ∀ (a b dst : Param) (high d : Nat) (s : State), s.Inv → Readable s a → Readable s b → WritesTo s dst d →
    ∃ t, exec (.lessThan a b dst high) s = .next t ∧ StoredF3 s t a b d ∧
      t.mem.get d = if (operandValue s a).toInt < (operandValue s b).toInt then 1#64 else 0#64

/-- equals (spec/43_compare.md R141): 1 or 0 by equality of whole values. Decided by the spec: D6. -/
def Obligations.EqualsStoresItsTruthValue : Prop :=
  ∀ (a b dst : Param) (high d : Nat) (s : State), s.Inv → Readable s a → Readable s b → WritesTo s dst d →
    ∃ t, exec (.equals a b dst high) s = .next t ∧ StoredF3 s t a b d ∧
      t.mem.get d = if (operandValue s a).toInt = (operandValue s b).toInt then 1#64 else 0#64

/-- add, multiply and adjust-relative-base (spec/40_arithmetic.md R111, R112; spec/44_relative_base.md R150) with a
result outside 64 bits under `wrap` (spec/40_arithmetic.md R110): the two's-complement value is the result, `IP`
advances by 4, 4 and 2, Memory is as long as the cells read and written need, and no other cell and no other part of
the state changes. Decided by the spec: D4, D6 (how far Memory grows). -/
def Obligations.OverflowWrapsUnderWrap : Prop :=
  ∀ s : State, s.Inv → s.params.overflowMode = .wrap →
    (∀ (a b dst : Param) (high d : Nat) (i : Instr) (v : Int), Readable s a → Readable s b → WritesTo s dst d →
      (i = .add a b dst high ∧ v = (operandValue s a).toInt + (operandValue s b).toInt ∨
        i = .multiply a b dst high ∧ v = (operandValue s a).toInt * (operandValue s b).toInt) → ¬InI64 v →
      ∃ t, exec i s = .next t ∧ StoredF3 s t a b d ∧
        (t.mem.get d).toInt = (v + 2 ^ 63) % 2 ^ 64 - 2 ^ 63) ∧
    ∀ (a : Param) (high : Nat), Readable s a → ¬InI64 (s.rb.toInt + (operandValue s a).toInt) →
      ∃ t, exec (.adjustRelativeBase a high) s = .next t ∧ OnlyGrewTo s t (max s.mem.len (cellEnd s a)) ∧
        t = { s with mem := t.mem, ip := s.ip + 2#64, rb := t.rb } ∧
        t.rb.toInt = (s.rb.toInt + (operandValue s a).toInt + 2 ^ 63) % 2 ^ 64 - 2 ^ 63

/-- input with a value waiting (spec/41_io.md R120): exactly the head is consumed and stored as it is. Decided by the
spec: D6. -/
def Obligations.InputStoresTheHeadOfTheQueue : Prop :=
  ∀ (dst : Param) (high d : Nat) (s : State) (v : Word) (rest : List Word), s.Inv → s.qin = v :: rest →
    WritesTo s dst d →
    ∃ t, exec (.input dst high) s = .next t ∧ t = { s with mem := t.mem, ip := s.ip + 2#64, qin := rest } ∧
      t.mem.get d = v ∧ (∀ c, c ≠ d → t.mem.get c = s.mem.get c) ∧ t.mem.len = max s.mem.len (d + 1)

/-- input on an empty queue (spec/41_io.md R121): whatever its destination, the one change is `RS <- SUSPENDED`; the
run ends with `Suspended`; the next run tries the same instruction again, and suspends again with nothing changed or,
when a value has been pushed or the queue replaced by one that is not empty, performs it; after any other host
operation but reset, a replacement by an empty queue included, it suspends again. A decode fault comes before the test
of the queue. Decided by the spec: D14 (whatever its destination), D10 (decode faults first). A step of a `SUSPENDED`
instance is the model's (log entry 4). -/
def Obligations.InputOnAnEmptyQueueSuspends : Prop :=
  (∀ (dst : Param) (high : Nat) (s : State), s.qin = [] →
    exec (.input dst high) s = .next { s with rs := .suspended } ∧
    (Runnable s → fetchDecode s = .ok (.input dst high) →
      ∀ cancel, run (false :: cancel) s = (.suspended, { s with rs := .suspended }) ∧
        run (false :: cancel) { s with rs := .suspended } = (.suspended, { s with rs := .suspended }) ∧
        (∀ v, step (pushInbound v { s with rs := .suspended }) =
          exec (.input dst high) { s with rs := .ready, qin := [v] }) ∧
        (∀ v q, step (setInboundQueue (v :: q) { s with rs := .suspended }) =
          exec (.input dst high) { s with rs := .ready, qin := v :: q }) ∧
        ∀ op, (∀ v, op ≠ .push v) → (∀ v q, op ≠ .setInboundQueue (v :: q)) → (∀ img n, op ≠ .new img n) →
          (run (false :: cancel) (hostOp op { s with rs := .suspended }).2).1 = .suspended)) ∧
  ∀ (s : State) (t : Trap), Runnable s → s.qin = [] → fetchDecode s = .error t → step s = .next (s.raise t)

/-- output (spec/41_io.md R122, R123): in one step the value is pushed to `Qout` and handed to the observer, when one
is registered. Decided by the spec: D6, D32. -/
def Obligations.OutputPushesAndNotifies : Prop :=
  ∀ (a : Param) (high : Nat) (s : State), Readable s a →
    ∃ t, exec (.output a high) s = .next t ∧ OnlyGrewTo s t (max s.mem.len (cellEnd s a)) ∧
      t = { s with mem := t.mem, ip := s.ip + 2#64, qout := s.qout ++ [operandValue s a], notices := t.notices } ∧
      (s.obs = none → t.notices = s.notices) ∧
      ∀ c, s.obs = some c → t.notices = s.notices ++ [⟨c, operandValue s a⟩]

/-- jump-if-true (spec/42_jumps.md R130): taken on every non-zero value, to the value of `b`, whatever it is; else `b`
is not read and `IP` advances by 3. Decided by the spec: D6 (how far Memory grows), D13 (`b` is not read). -/
def Obligations.JumpIfTrueJumpsOnNonZero : Prop :=
  ∀ (a b : Param) (high : Nat) (s : State), Readable s a →
    (operandValue s a ≠ 0#64 → Readable s b →
      ∃ t, exec (.jumpIfTrue a b high) s = .next t ∧
        OnlyGrewTo s t (max (max s.mem.len (cellEnd s a)) (cellEnd s b)) ∧
        t = { s with mem := t.mem, ip := operandValue s b }) ∧
    (operandValue s a = 0#64 →
      ∃ t, exec (.jumpIfTrue a b high) s = .next t ∧ OnlyGrewTo s t (max s.mem.len (cellEnd s a)) ∧
        t = { s with mem := t.mem, ip := s.ip + 3#64 })

/-- jump-if-false (spec/42_jumps.md R131): the same with the condition inverted. Decided by the spec: D6 (how far
Memory grows), D13. -/
def Obligations.JumpIfFalseJumpsOnZero : Prop :=
  ∀ (a b : Param) (high : Nat) (s : State), Readable s a →
    (operandValue s a = 0#64 → Readable s b →
      ∃ t, exec (.jumpIfFalse a b high) s = .next t ∧
        OnlyGrewTo s t (max (max s.mem.len (cellEnd s a)) (cellEnd s b)) ∧
        t = { s with mem := t.mem, ip := operandValue s b }) ∧
    (operandValue s a ≠ 0#64 →
      ∃ t, exec (.jumpIfFalse a b high) s = .next t ∧ OnlyGrewTo s t (max s.mem.len (cellEnd s a)) ∧
        t = { s with mem := t.mem, ip := s.ip + 3#64 })

/-- adjust-relative-base (spec/44_relative_base.md R150): the operand, read under the old base, is added to it.
Decided by the spec: D6 (how far Memory grows). -/
def Obligations.AdjustRelativeBaseAddsToTheBase : Prop :=
  ∀ (a : Param) (high : Nat) (s : State), Readable s a → InI64 (s.rb.toInt + (operandValue s a).toInt) →
    ∃ t, exec (.adjustRelativeBase a high) s = .next t ∧ OnlyGrewTo s t (max s.mem.len (cellEnd s a)) ∧
      t = { s with mem := t.mem, ip := s.ip + 2#64, rb := t.rb } ∧
      t.rb.toInt = s.rb.toInt + (operandValue s a).toInt

/-- halt (spec/45_halt.md R155): in every state the one change is `RS <- HALTED`, the run ends with `Halted`, and
every non-negative word whose low two digits are 99 is a halt whatever its other digits. Decided by the spec: D15
(`IP` stays). -/
def Obligations.HaltOnlySetsTheRunState : Prop :=
  (∀ (high : Nat) (s : State), exec (.halt high) s = .next { s with rs := .halted } ∧
    (Runnable s → fetchDecode s = .ok (.halt high) →
      ∀ cancel, run (false :: cancel) s = (.halted, { s with rs := .halted }))) ∧
  ∀ (w : Word) (cells : List Word), 0 ≤ w.toInt → w.toNat % 100 = 99 →
    ∃ high, decode (w :: cells) = .ok (.halt high, cells)

/-! ### Where the instructions fault -/

/-- A step whose instruction decodes raises the first fault met in the order of R205 (points 5 to 8), and none when no
test fails (spec/60_exceptions.md R205). Decided by the spec: D3, D4, D14, D26. A step of a `SUSPENDED` instance is
the model's (log entry 4). -/
def Obligations.TheFirstFaultMetIsRaised : Prop :=
  ∀ (s : State) (i : Instr), Runnable s → fetchDecode s = .ok i →
    (∀ e, effectTrap i s = some e → step s = .next (s.raise e)) ∧
    (effectTrap i s = none → ∃ t, step s = .next t ∧ t.rs ≠ .faulted)

/-- A write parameter that is immediate, or whose address is bad, decides the fault when every read parameter is
readable and, for input, a value is there; the fault comes before any overflow (spec/60_exceptions.md R205, point 7).
Decided by the spec: D14, D26. -/
def Obligations.BadWriteTargetFaults : Prop :=
  ∀ (i : Instr) (dst : Param) (s : State), writeParam i = some dst →
    (∀ a, firstRead i = some a → Readable s a) → (∀ b, secondRead s i = some b → Readable s b) →
    (∀ p h, i = .input p h → s.qin ≠ []) →
    (dst.mode = .immediate → exec i s = .next (s.raise ⟨.invalidWriteTarget, i.wordNat⟩)) ∧
    ∀ n, paramAddr s.rb dst = some n → BadAddress s n → exec i s = .next (s.raise (addressTrap n))

/-- An exact result outside 64 bits raises `ArithmeticOverflow` with that result under `OVERFLOW_MODE` = fault, after
every operand has been resolved (spec/60_exceptions.md R205, point 8; spec/40_arithmetic.md R110). Decided by the
spec: D4, D26. -/
def Obligations.OverflowFaultsUnderFault : Prop :=
  ∀ (i : Instr) (s : State) (v : Int), exactResult s i = some v → ¬InI64 v → s.params.overflowMode = .fault →
    (∀ a, firstRead i = some a → Readable s a) → (∀ b, secondRead s i = some b → Readable s b) →
    (∀ dst, writeParam i = some dst → ∃ d, WritesTo s dst d) →
    exec i s = .next (s.raise ⟨.arithmeticOverflow, v⟩)

/-- Which causes each instruction raises once it is decoded (spec/60_exceptions.md R200, "raised by"), and that
`ArithmeticOverflow` needs `OVERFLOW_MODE` = fault (R209). Decided by the spec: D3, D4, D12. -/
def Obligations.EachInstructionRaisesOnlyItsCauses : Prop :=
  ∀ (i : Instr) (s t : State), exec i s = .next t → s.rs ≠ .faulted → t.rs = .faulted →
    ∃ r, t.fc = some r ∧ r.ip = s.ip ∧ r.cause ∈ causesOf i ∧
      (r.cause = .arithmeticOverflow → s.params.overflowMode = .fault)

/-- A fault changes `RS` and `FC` and nothing else: no growth, no pop, no push, no notification, `IP` at the faulting
instruction (spec/60_exceptions.md R206). Decided by the spec: D11, D12. -/
def Obligations.FaultsArePrecise : Prop :=
  ∀ s t : State, step s = .next t → t.rs = .faulted →
    ∃ cause info, t = { s with rs := .faulted, fc := some ⟨cause, s.ip, info⟩ }

/-! ### Frames of all instructions -/

/-- What every instruction leaves alone: the parameters and the observer registration; `RB` but for
adjust-relative-base; `Qin` but for input; `Qout` and the notifications but for output; `RS` but for a fault, a halt and
an input; `FC` but for a fault. -/
def Obligations.RegistersChangeOnlyByTheirInstructions : Prop :=
  ∀ (i : Instr) (s t : State), exec i s = .next t →
    t.params = s.params ∧ t.obs = s.obs ∧
    ((∀ a h, i ≠ .adjustRelativeBase a h) → t.rb = s.rb) ∧
    ((∀ p h, i ≠ .input p h) → t.qin = s.qin) ∧
    ((∀ a h, i ≠ .output a h) → t.qout = s.qout ∧ t.notices = s.notices) ∧
    (t.rs = .faulted ∨ t.fc = s.fc) ∧
    (t.rs = .faulted ∨ t.rs = s.rs ∨ (∃ h, i = .halt h ∧ t.rs = .halted) ∨
      ∃ p h, i = .input p h ∧ t.rs = .suspended)

/-- Every cell is unchanged but the one the write parameter addresses; Memory never shrinks (spec/10_state.md R23). For
an instruction without a write parameter every cell reads as before. -/
def Obligations.MemoryChangesOnlyAtTheWriteParameter : Prop :=
  ∀ (i : Instr) (s t : State), exec i s = .next t →
    s.mem.len ≤ t.mem.len ∧
    ∀ c : Nat, (∀ dst, writeParam i = some dst → paramAddr s.rb dst ≠ some (c : Int)) → t.mem.get c = s.mem.get c

/-- The value an instruction wrote is what the next fetch of that cell reads, as an instruction word or as a parameter
(spec/20_memory.md R63). -/
def Obligations.StoresAreSeenByTheNextFetch : Prop :=
  ∀ (i : Instr) (dst : Param) (d : Nat) (s t : State), s.mem.wf → s.rs = .ready → writeParam i = some dst →
    WritesTo s dst d → exec i s = .next t → t.rs = .ready →
    ∃ v, writtenValue s i = some v ∧ fetch t.mem d = .ok v

/-! ### The step -/

/-- When the cells at `IP` decode to an instruction, the step is that instruction's effect; `run` has made a suspended
instance `READY` first (spec/49_run_and_host.md R161, R165). Nothing else is added around it. A step of a `SUSPENDED`
instance is the model's (log entry 4). -/
def Obligations.StepRunsTheDecodedInstruction : Prop :=
  ∀ (s : State) (i : Instr) (rest : List Word), Runnable s → decode (fetchWindow s) = .ok (i, rest) →
    step s = exec i { s with rs := .ready }

/-- An instruction whose cells stand in Memory from `IP` on is the one the step runs, whatever follows it
(spec/30_encoding.md R80, spec/20_memory.md R55). A step of a `SUSPENDED` instance is the model's (log entry 4). -/
def Obligations.AnEncodedInstructionAtIpRuns : Prop :=
  ∀ (s : State) (i : Instr), Runnable s → i.wf = true →
    (∀ (k : Nat) (w : Word), (encode i)[k]? = some w → fetch s.mem (s.ip.toInt + k) = .ok w) →
    step s = exec i { s with rs := .ready }

/-- The faults of decoding, in their order (spec/30_encoding.md R87; spec/60_exceptions.md R205, points 1 to 4): the
word fetch, the opcode, a mode digit, the first parameter cell outside Memory. Decided by the spec: D7, D8, D10, D28.
A step of a `SUSPENDED` instance is the model's (log entry 4). -/
def Obligations.DecodeFaultsComeInOrder : Prop :=
  ∀ s : State, Runnable s →
    (s.ip.toInt < 0 ∨ (s.mem.len : Int) ≤ s.ip.toInt → step s = .next (s.raise ⟨.outOfBounds, s.ip.toInt⟩)) ∧
    ∀ w : Word, fetch s.mem s.ip.toInt = .ok w →
      (w.toInt < 0 ∨ paramCount (w.toNat % 100) = none →
        step s = .next (s.raise ⟨.unsupportedOpcode, w.toInt⟩)) ∧
      ∀ n, 0 ≤ w.toInt → paramCount (w.toNat % 100) = some n →
        ((∃ k, k < n ∧ 2 < dig w.toNat (2 + k)) →
          step s = .next (s.raise ⟨.unsupportedAddressingMode, w.toInt⟩)) ∧
        ∀ k : Nat, (∀ j, j < n → dig w.toNat (2 + j) ≤ 2) → k < n →
          (∀ j : Nat, j < k → s.ip.toInt + 1 + j < s.mem.len) → (s.mem.len : Int) ≤ s.ip.toInt + 1 + k →
          step s = .next (s.raise ⟨.outOfBounds, s.ip.toInt + 1 + k⟩)

/-- `IP` after a step (the table of spec/10_state.md R24), as integers: it never wraps in a state of the machine.
Decided by the spec: D5, D15. A step of a `SUSPENDED` instance is the model's (log entry 4). -/
def Obligations.InstructionPointerFollowsTheTable : Prop :=
  ∀ s t : State, s.Inv → Runnable s → step s = .next t →
    (t.rs = .faulted → t.ip = s.ip) ∧
    ∀ i, fetchDecode s = .ok i → t.rs ≠ .faulted → t.ip.toInt = ipAfter i s

/-- A taken jump loads the value of `b`, whatever it is, and never faults on it. When it is outside Memory the next
step's word fetch raises `OutOfBounds` with `FC`'s ip equal to the target; when it is inside, the cell there is the
next instruction word (spec/42_jumps.md R132, which the spec derives from R130, R131 and R55). -/
def Obligations.TakenJumpIsCheckedAtTheNextFetch : Prop :=
  ∀ (a b : Param) (high : Nat) (i : Instr) (s : State), s.rs = .ready → Readable s a → Readable s b →
    (i = .jumpIfTrue a b high ∧ operandValue s a ≠ 0#64 ∨ i = .jumpIfFalse a b high ∧ operandValue s a = 0#64) →
    ∃ t, exec i s = .next t ∧ t.ip = operandValue s b ∧ t.rs = .ready ∧
      (t.ip.toInt < 0 ∨ (t.mem.len : Int) ≤ t.ip.toInt →
        step t = .next { t with rs := .faulted, fc := some ⟨.outOfBounds, t.ip, t.ip.toInt⟩ }) ∧
      (0 ≤ t.ip.toInt → t.ip.toInt < t.mem.len →
        ∃ cells, fetchWindow t = t.mem.get t.ip.toInt.toNat :: cells)

/-- An instance that is not `FAULTED` always has its step, and no step is refused. For `READY` this is
spec/70_reset_and_hazards.md R248 and spec/49_run_and_host.md R161; an input on an empty queue answers the suspension
of R121. That a step of a `HALTED` instance answers the same state, and that a `SUSPENDED` one has a step, is the
model's choice (log entries 3 and 4): the spec takes no step there but through `run` (R164, R165). Decided by the
spec: D2. -/
def Obligations.StepAlwaysAnswersUnlessFaulted : Prop :=
  ∀ s : State, (s.rs ≠ .faulted → ∃ t, step s = .next t) ∧ ∀ r, step s ≠ .refused r

/-! ### Invariants -/

/-- The reset state meets the invariant. Its image and parameters are the model's choice (log entries 1 and 5). -/
def Obligations.ResetMeetsTheInvariant : Prop := State.reset.Inv

/-- So does every state reset gives, for parameters in their range. -/
def Obligations.EveryFreshInstanceMeetsTheInvariant : Prop :=
  ∀ (p : Params) (img : List Word) (n : Option Nat) (s : State), p.Wf → construct p img n = .ok s → s.Inv

/-- Every step keeps the invariant. -/
def Obligations.StepKeepsTheInvariant : Prop := ∀ s t : State, s.Inv → step s = .next t → t.Inv

/-- Every host operation keeps it, `run` with any number of steps included. -/
def Obligations.HostOperationsKeepTheInvariant : Prop := ∀ (op : HostOp) (s : State), s.Inv → (hostOp op s).2.Inv

/-! ### What a program cannot learn -/

/-- No step reads `Qout`, `OBS`, `FC` or the notifications (spec/10_state.md R31): two instances that differ in them
only take the same step, `Qout` grows by the same values, and a step that faults leaves the same record. -/
def Obligations.HiddenStateDoesNotSteerTheStep : Prop :=
  ∀ (s t : State) (q : List Word) (o : Option Consumer) (fc : Option FaultRecord) (ns : List Notice),
    step s = .next t →
    ∃ t', step { s with qout := q ++ s.qout, obs := o, fc := fc, notices := ns } = .next t' ∧
      t'.mem = t.mem ∧ t'.ip = t.ip ∧ t'.rb = t.rb ∧ t'.qin = t.qin ∧ t'.rs = t.rs ∧ t'.qout = q ++ t.qout ∧
      (t.rs = .faulted → t'.fc = t.fc)

/-- Values behind the head of `Qin` cannot be seen: a step that does not suspend takes the same course with more values
behind those there (spec/10_state.md R26, spec/60_exceptions.md R222). -/
def Obligations.LaterInputsDoNotSteerTheStep : Prop :=
  ∀ (s t : State) (q : List Word), step s = .next t → t.rs ≠ .suspended →
    step { s with qin := s.qin ++ q } = .next { t with qin := t.qin ++ q }

/-! ### The run loop -/

/-- The outcome of `run` and the run state it leaves (spec/49_run_and_host.md R165, R175): each outcome with its run
state, a cancelled or unfinished run `READY`, and nothing refused. Decided by the spec: D12, D31. The bound on the
steps, and `outOfSteps`, are the model's (log entry 11). -/
def Obligations.RunOutcomeMatchesTheRunState : Prop :=
  ∀ (cancel : List Bool) (s t : State) (r : RunOutcome), run cancel s = (r, t) →
    match r with
    | .halted => t.rs = .halted
    | .suspended => t.rs = .suspended ∧ t.qin = []
    | .fault c => t.rs = .faulted ∧ t.fc = c
    | .cancelled => t.rs = .ready
    | .outOfSteps => t.rs = .ready
    | .refused _ => False

/-- Cancellation is sampled once before each step (spec/49_run_and_host.md R168): a run that is still going after the
steps of `cs` is cancelled by the next sample with the state those steps left, and a later run goes on from there as
if there had been no cancellation (R168). Decided by the spec: D17. The bound on the steps, and `outOfSteps`, are the
model's (log entry 11). -/
def Obligations.CancelledRunResumesWhereItStopped : Prop :=
  ∀ (cs ds : List Bool) (s t : State), run cs s = (.outOfSteps, t) →
    t.rs = .ready ∧ run (cs ++ true :: ds) s = (.cancelled, t) ∧ run (cs ++ ds) s = run ds t

/-! ### Topology -/

/-- The bridge (spec/49_run_and_host.md R178): when an instance linked to `V[j]` executes an output, after that step
the value is at the tail of its own `Qout` and of `V[j]`'s `Qin`, and no other queue has changed. Decided by the spec:
D21, D32. A step of a `SUSPENDED` instance is the model's (log entry 4). -/
def Obligations.OutputReachesTheLinkedInstanceInTheSameStep : Prop :=
  ∀ (vms : List State) (i j : Nat) (s : State) (a : Param) (high : Nat), vms[i]? = some s → Runnable s →
    fetchDecode s = .ok (.output a high) → Readable s a → s.obs = some (.vm j) →
    ∃ vms', stepVm i vms = .next vms' ∧ vms'.length = vms.length ∧
      ∀ (k : Nat) (u : State), vms[k]? = some u → ∃ u', vms'[k]? = some u' ∧
        u'.qin = u.qin ++ (if k = j then [operandValue s a] else []) ∧
        u'.qout = u.qout ++ (if k = i then [operandValue s a] else [])

/-- The instances, links and preloads of both topologies: one instance for each preload or phase
(spec/49_run_and_host.md R179, R180). Decided by the spec: D21, D22. -/
def Obligations.TopologiesAreWiredAndPreloaded : Prop :=
  (∀ (s : State) (pre : List (List Word)), (pipelineStart s pre).length = pre.length ∧
    ∀ (i : Nat) (q : List Word), s.qin = [] → pre[i]? = some q →
      (pipelineStart s pre)[i]? = some { s with
        qin := q, obs := if i + 1 < pre.length then some (.vm (i + 1)) else none }) ∧
  ∀ (s : State) (phases : List Word) (seed : Word), (feedbackStart s phases seed).length = phases.length ∧
    ∀ (i : Nat) (v : Word), s.qin = [] → phases[i]? = some v →
      (feedbackStart s phases seed)[i]? = some { s with
        qin := if i = 0 then [v, seed] else [v], obs := some (.vm ((i + 1) % phases.length)) }

/-- A deadlocked network is stuck (spec/49_run_and_host.md R182): no instance has an enabled step, and running any of
them changes nothing. Decided by the spec: D23. -/
def Obligations.DeadlockIsStable : Prop :=
  ∀ vms : List State, (∀ s ∈ vms, s.Inv) → deadlocked vms = true →
    AtRest vms ∧ (∃ s ∈ vms, s.rs ≠ .halted) ∧
    ∀ bound i, i < vms.length → ∃ r, runVm (bound + 1) i vms = (r, vms) ∧ (r = .halted ∨ r = .suspended)

/-- Two instances that both have an enabled step may take them in either order: the network is the same
(spec/49_run_and_host.md R183). That a `SUSPENDED` instance with an enabled step may take it, and that no channel is
closed, is the model's (log entries 4 and 12). -/
def Obligations.EnabledStepsCommute : Prop :=
  ∀ (vms : List State) (i j : Nat) (s u : State), i ≠ j → SingleProducer vms → vms[i]? = some s → vms[j]? = some u →
    enabled s = true → enabled u = true →
    ∃ vi vj w, stepVm i vms = .next vi ∧ stepVm j vi = .next w ∧ stepVm j vms = .next vj ∧ stepVm i vj = .next w

/-- Determinism of a network (spec/49_run_and_host.md R183): every interleaving that comes to rest comes to rest in
the same network, so all queues and the final signal are the same. An interleaving is a schedule, and no channel is
closed: the model's choice (log entry 12). -/
def Obligations.EveryInterleavingReachesTheSameNetwork : Prop :=
  ∀ (vms : List State) (a b : List Nat), SingleProducer vms → AtRest (runSchedule a vms) →
    AtRest (runSchedule b vms) → runSchedule a vms = runSchedule b vms

/-- The round-robin driver and every interleaving of the concurrent alternative that ends with all instances halted
give the same final signal (spec/49_run_and_host.md R183). Decided by the spec: D21 (the final signal). The concurrent
alternative is a schedule, and no channel is closed: the model's choice (log entry 12). -/
def Obligations.RoundRobinAndConcurrentSignalsAgree : Prop :=
  ∀ (vms vms' : List State) (schedule : List Nat) (rounds bound : Nat) (v : Word), SingleProducer vms →
    feedbackRounds bound rounds vms = (.signal v, vms') →
    (∀ s ∈ runSchedule schedule vms, s.rs = .halted) → finalSignal (runSchedule schedule vms) = .signal v
end

