-- ==== Sys2Proof/Laws/State.lean ====
section
/-! SUPPORT. What each named update of State does to each field. -/

namespace Sys2Proof.Machine

variable (s : State)

@[simp] theorem State.setMem_mem (m : Memory) : (s.setMem m).mem = m := rfl
@[simp] theorem State.setMem_ip (m : Memory) : (s.setMem m).ip = s.ip := rfl
@[simp] theorem State.setMem_rb (m : Memory) : (s.setMem m).rb = s.rb := rfl
@[simp] theorem State.setMem_qin (m : Memory) : (s.setMem m).qin = s.qin := rfl
@[simp] theorem State.setMem_qout (m : Memory) : (s.setMem m).qout = s.qout := rfl
@[simp] theorem State.setMem_rs (m : Memory) : (s.setMem m).rs = s.rs := rfl
@[simp] theorem State.setMem_fc (m : Memory) : (s.setMem m).fc = s.fc := rfl
@[simp] theorem State.setMem_obs (m : Memory) : (s.setMem m).obs = s.obs := rfl
@[simp] theorem State.setMem_notices (m : Memory) : (s.setMem m).notices = s.notices := rfl
@[simp] theorem State.setMem_params (m : Memory) : (s.setMem m).params = s.params := rfl

@[simp] theorem State.setIp_mem (v : Word) : (s.setIp v).mem = s.mem := rfl
@[simp] theorem State.setIp_ip (v : Word) : (s.setIp v).ip = v := rfl
@[simp] theorem State.setIp_rb (v : Word) : (s.setIp v).rb = s.rb := rfl
@[simp] theorem State.setIp_qin (v : Word) : (s.setIp v).qin = s.qin := rfl
@[simp] theorem State.setIp_qout (v : Word) : (s.setIp v).qout = s.qout := rfl
@[simp] theorem State.setIp_rs (v : Word) : (s.setIp v).rs = s.rs := rfl
@[simp] theorem State.setIp_fc (v : Word) : (s.setIp v).fc = s.fc := rfl
@[simp] theorem State.setIp_obs (v : Word) : (s.setIp v).obs = s.obs := rfl
@[simp] theorem State.setIp_notices (v : Word) : (s.setIp v).notices = s.notices := rfl
@[simp] theorem State.setIp_params (v : Word) : (s.setIp v).params = s.params := rfl

@[simp] theorem State.advance_mem (n : Nat) : (s.advance n).mem = s.mem := rfl
@[simp] theorem State.advance_ip (n : Nat) : (s.advance n).ip = s.ip + BitVec.ofNat 64 n := rfl
@[simp] theorem State.advance_rb (n : Nat) : (s.advance n).rb = s.rb := rfl
@[simp] theorem State.advance_qin (n : Nat) : (s.advance n).qin = s.qin := rfl
@[simp] theorem State.advance_qout (n : Nat) : (s.advance n).qout = s.qout := rfl
@[simp] theorem State.advance_rs (n : Nat) : (s.advance n).rs = s.rs := rfl
@[simp] theorem State.advance_fc (n : Nat) : (s.advance n).fc = s.fc := rfl
@[simp] theorem State.advance_obs (n : Nat) : (s.advance n).obs = s.obs := rfl
@[simp] theorem State.advance_notices (n : Nat) : (s.advance n).notices = s.notices := rfl
@[simp] theorem State.advance_params (n : Nat) : (s.advance n).params = s.params := rfl

@[simp] theorem State.setRb_mem (v : Word) : (s.setRb v).mem = s.mem := rfl
@[simp] theorem State.setRb_ip (v : Word) : (s.setRb v).ip = s.ip := rfl
@[simp] theorem State.setRb_rb (v : Word) : (s.setRb v).rb = v := rfl
@[simp] theorem State.setRb_qin (v : Word) : (s.setRb v).qin = s.qin := rfl
@[simp] theorem State.setRb_qout (v : Word) : (s.setRb v).qout = s.qout := rfl
@[simp] theorem State.setRb_rs (v : Word) : (s.setRb v).rs = s.rs := rfl
@[simp] theorem State.setRb_fc (v : Word) : (s.setRb v).fc = s.fc := rfl
@[simp] theorem State.setRb_obs (v : Word) : (s.setRb v).obs = s.obs := rfl
@[simp] theorem State.setRb_notices (v : Word) : (s.setRb v).notices = s.notices := rfl
@[simp] theorem State.setRb_params (v : Word) : (s.setRb v).params = s.params := rfl

@[simp] theorem State.setQin_mem (q : List Word) : (s.setQin q).mem = s.mem := rfl
@[simp] theorem State.setQin_ip (q : List Word) : (s.setQin q).ip = s.ip := rfl
@[simp] theorem State.setQin_rb (q : List Word) : (s.setQin q).rb = s.rb := rfl
@[simp] theorem State.setQin_qin (q : List Word) : (s.setQin q).qin = q := rfl
@[simp] theorem State.setQin_qout (q : List Word) : (s.setQin q).qout = s.qout := rfl
@[simp] theorem State.setQin_rs (q : List Word) : (s.setQin q).rs = s.rs := rfl
@[simp] theorem State.setQin_fc (q : List Word) : (s.setQin q).fc = s.fc := rfl
@[simp] theorem State.setQin_obs (q : List Word) : (s.setQin q).obs = s.obs := rfl
@[simp] theorem State.setQin_notices (q : List Word) : (s.setQin q).notices = s.notices := rfl
@[simp] theorem State.setQin_params (q : List Word) : (s.setQin q).params = s.params := rfl

@[simp] theorem State.pushIn_mem (v : Word) : (s.pushIn v).mem = s.mem := rfl
@[simp] theorem State.pushIn_ip (v : Word) : (s.pushIn v).ip = s.ip := rfl
@[simp] theorem State.pushIn_rb (v : Word) : (s.pushIn v).rb = s.rb := rfl
@[simp] theorem State.pushIn_qin (v : Word) : (s.pushIn v).qin = s.qin ++ [v] := rfl
@[simp] theorem State.pushIn_qout (v : Word) : (s.pushIn v).qout = s.qout := rfl
@[simp] theorem State.pushIn_rs (v : Word) : (s.pushIn v).rs = s.rs := rfl
@[simp] theorem State.pushIn_fc (v : Word) : (s.pushIn v).fc = s.fc := rfl
@[simp] theorem State.pushIn_obs (v : Word) : (s.pushIn v).obs = s.obs := rfl
@[simp] theorem State.pushIn_notices (v : Word) : (s.pushIn v).notices = s.notices := rfl
@[simp] theorem State.pushIn_params (v : Word) : (s.pushIn v).params = s.params := rfl

@[simp] theorem State.pushOut_mem (v : Word) : (s.pushOut v).mem = s.mem := rfl
@[simp] theorem State.pushOut_ip (v : Word) : (s.pushOut v).ip = s.ip := rfl
@[simp] theorem State.pushOut_rb (v : Word) : (s.pushOut v).rb = s.rb := rfl
@[simp] theorem State.pushOut_qin (v : Word) : (s.pushOut v).qin = s.qin := rfl
@[simp] theorem State.pushOut_qout (v : Word) : (s.pushOut v).qout = s.qout ++ [v] := rfl
@[simp] theorem State.pushOut_rs (v : Word) : (s.pushOut v).rs = s.rs := rfl
@[simp] theorem State.pushOut_fc (v : Word) : (s.pushOut v).fc = s.fc := rfl
@[simp] theorem State.pushOut_obs (v : Word) : (s.pushOut v).obs = s.obs := rfl
@[simp] theorem State.pushOut_notices (v : Word) : (s.pushOut v).notices = s.notices := rfl
@[simp] theorem State.pushOut_params (v : Word) : (s.pushOut v).params = s.params := rfl

@[simp] theorem State.notify_mem (v : Word) : (s.notify v).mem = s.mem := rfl
@[simp] theorem State.notify_ip (v : Word) : (s.notify v).ip = s.ip := rfl
@[simp] theorem State.notify_rb (v : Word) : (s.notify v).rb = s.rb := rfl
@[simp] theorem State.notify_qin (v : Word) : (s.notify v).qin = s.qin := rfl
@[simp] theorem State.notify_qout (v : Word) : (s.notify v).qout = s.qout := rfl
@[simp] theorem State.notify_rs (v : Word) : (s.notify v).rs = s.rs := rfl
@[simp] theorem State.notify_fc (v : Word) : (s.notify v).fc = s.fc := rfl
@[simp] theorem State.notify_obs (v : Word) : (s.notify v).obs = s.obs := rfl
@[simp] theorem State.notify_notices (v : Word) : (s.notify v).notices = s.notices ++ (match s.obs with | none => [] | some c => [⟨c, v⟩]) := rfl
@[simp] theorem State.notify_params (v : Word) : (s.notify v).params = s.params := rfl

@[simp] theorem State.setRs_mem (r : RunState) : (s.setRs r).mem = s.mem := rfl
@[simp] theorem State.setRs_ip (r : RunState) : (s.setRs r).ip = s.ip := rfl
@[simp] theorem State.setRs_rb (r : RunState) : (s.setRs r).rb = s.rb := rfl
@[simp] theorem State.setRs_qin (r : RunState) : (s.setRs r).qin = s.qin := rfl
@[simp] theorem State.setRs_qout (r : RunState) : (s.setRs r).qout = s.qout := rfl
@[simp] theorem State.setRs_rs (r : RunState) : (s.setRs r).rs = r := rfl
@[simp] theorem State.setRs_fc (r : RunState) : (s.setRs r).fc = s.fc := rfl
@[simp] theorem State.setRs_obs (r : RunState) : (s.setRs r).obs = s.obs := rfl
@[simp] theorem State.setRs_notices (r : RunState) : (s.setRs r).notices = s.notices := rfl
@[simp] theorem State.setRs_params (r : RunState) : (s.setRs r).params = s.params := rfl

@[simp] theorem State.raise_mem (t : Trap) : (s.raise t).mem = s.mem := rfl
@[simp] theorem State.raise_ip (t : Trap) : (s.raise t).ip = s.ip := rfl
@[simp] theorem State.raise_rb (t : Trap) : (s.raise t).rb = s.rb := rfl
@[simp] theorem State.raise_qin (t : Trap) : (s.raise t).qin = s.qin := rfl
@[simp] theorem State.raise_qout (t : Trap) : (s.raise t).qout = s.qout := rfl
@[simp] theorem State.raise_rs (t : Trap) : (s.raise t).rs = .faulted := rfl
@[simp] theorem State.raise_fc (t : Trap) : (s.raise t).fc = some ⟨t.cause, s.ip, t.info⟩ := rfl
@[simp] theorem State.raise_obs (t : Trap) : (s.raise t).obs = s.obs := rfl
@[simp] theorem State.raise_notices (t : Trap) : (s.raise t).notices = s.notices := rfl
@[simp] theorem State.raise_params (t : Trap) : (s.raise t).params = s.params := rfl

@[simp] theorem State.suspend_mem : s.suspend.mem = s.mem := rfl
@[simp] theorem State.suspend_ip : s.suspend.ip = s.ip := rfl
@[simp] theorem State.suspend_rb : s.suspend.rb = s.rb := rfl
@[simp] theorem State.suspend_qin : s.suspend.qin = s.qin := rfl
@[simp] theorem State.suspend_qout : s.suspend.qout = s.qout := rfl
@[simp] theorem State.suspend_rs : s.suspend.rs = .suspended := rfl
@[simp] theorem State.suspend_fc : s.suspend.fc = s.fc := rfl
@[simp] theorem State.suspend_obs : s.suspend.obs = s.obs := rfl
@[simp] theorem State.suspend_notices : s.suspend.notices = s.notices := rfl
@[simp] theorem State.suspend_params : s.suspend.params = s.params := rfl

@[simp] theorem State.halt_mem : s.halt.mem = s.mem := rfl
@[simp] theorem State.halt_ip : s.halt.ip = s.ip := rfl
@[simp] theorem State.halt_rb : s.halt.rb = s.rb := rfl
@[simp] theorem State.halt_qin : s.halt.qin = s.qin := rfl
@[simp] theorem State.halt_qout : s.halt.qout = s.qout := rfl
@[simp] theorem State.halt_rs : s.halt.rs = .halted := rfl
@[simp] theorem State.halt_fc : s.halt.fc = s.fc := rfl
@[simp] theorem State.halt_obs : s.halt.obs = s.obs := rfl
@[simp] theorem State.halt_notices : s.halt.notices = s.notices := rfl
@[simp] theorem State.halt_params : s.halt.params = s.params := rfl

@[simp] theorem setObserver_mem (c : Option Consumer) : (setObserver c s).mem = s.mem := rfl
@[simp] theorem setObserver_ip (c : Option Consumer) : (setObserver c s).ip = s.ip := rfl
@[simp] theorem setObserver_rb (c : Option Consumer) : (setObserver c s).rb = s.rb := rfl
@[simp] theorem setObserver_qin (c : Option Consumer) : (setObserver c s).qin = s.qin := rfl
@[simp] theorem setObserver_qout (c : Option Consumer) : (setObserver c s).qout = s.qout := rfl
@[simp] theorem setObserver_rs (c : Option Consumer) : (setObserver c s).rs = s.rs := rfl
@[simp] theorem setObserver_fc (c : Option Consumer) : (setObserver c s).fc = s.fc := rfl
@[simp] theorem setObserver_obs (c : Option Consumer) : (setObserver c s).obs = c := rfl
@[simp] theorem setObserver_notices (c : Option Consumer) : (setObserver c s).notices = s.notices := rfl
@[simp] theorem setObserver_params (c : Option Consumer) : (setObserver c s).params = s.params := rfl

/-- A fault records nothing of the run state before it. -/
@[simp] theorem State.setRs_raise (r : RunState) (t : Trap) : (s.setRs r).raise t = s.raise t := rfl

/-- A suspension replaces the run state. -/
@[simp] theorem State.setRs_suspend (r : RunState) : (s.setRs r).suspend = s.suspend := rfl

/-- Setting the run state to what it is changes nothing. -/
theorem State.setRs_self (r : RunState) (h : s.rs = r) : s.setRs r = s := by subst h; rfl

end Sys2Proof.Machine
end

