-- ==== Sys2Proof/Laws/Operands.lean ====
section
/-! SUPPORT. Once for each operand operation: everything it can answer. -/

namespace Sys2Proof.Machine

/-- `CheckAddr` passes exactly the addresses of the valid range. -/
theorem checkAddr_ok_iff {p : Params} {a : Int} {n : Nat} :
    checkAddr p a = .ok n ↔ 0 ≤ a ∧ a < p.memMax ∧ n = a.toNat := by
  unfold checkAddr
  split
  · constructor <;> intro h
    · cases h
    · omega
  · split
    · constructor <;> intro h
      · cases h
      · omega
    · constructor
      · rintro ⟨⟩
        exact ⟨by omega, by omega, rfl⟩
      · rintro ⟨-, -, rfl⟩
        rfl

/-- `CheckAddr` raises `OutOfBounds` below 0, else `CapacityExceeded` from `MEM_MAX` on. -/
theorem checkAddr_error_iff {p : Params} {a : Int} {t : Trap} :
    checkAddr p a = .error t ↔
      (a < 0 ∧ t = ⟨.outOfBounds, a⟩) ∨ (0 ≤ a ∧ (p.memMax : Int) ≤ a ∧ t = ⟨.capacityExceeded, a⟩) := by
  unfold checkAddr
  split
  · rename_i h
    simp [h, Int.not_le.mpr h, eq_comm]
  · split <;> rename_i h h' <;> simp [h, h', Int.not_lt.mp h, eq_comm]

/-- `Fetch` answers exactly inside Memory. -/
theorem fetch_ok_iff {m : Memory} {a : Int} {w : Word} :
    fetch m a = .ok w ↔ 0 ≤ a ∧ a < m.len ∧ w = m.get a.toNat := by
  unfold fetch
  split
  · constructor <;> intro h
    · cases h
    · omega
  · constructor
    · rintro ⟨⟩
      exact ⟨by omega, by omega, rfl⟩
    · rintro ⟨-, -, rfl⟩
      rfl

/-- `Fetch` raises `OutOfBounds` with the address, and nothing else. -/
theorem fetch_error_iff {m : Memory} {a : Int} {t : Trap} :
    fetch m a = .error t ↔ (a < 0 ∨ (m.len : Int) ≤ a) ∧ t = ⟨.outOfBounds, a⟩ := by
  unfold fetch
  split <;> simp [eq_comm] <;> omega

/-- The value `Rd` takes from the memory `m`. -/
def valueIn (s : State) (m : Memory) (p : Param) : Word :=
  match paramAddr s.rb p with
  | none => p.cell
  | some a => m.get a.toNat

/-- `Rd` on the state's own memory gives the operand's value. -/
@[simp] theorem valueIn_mem (s : State) (p : Param) : valueIn s s.mem p = operandValue s p := rfl

/-- A length changes no value. -/
@[simp] theorem valueIn_len (s : State) (m : Memory) (n : Nat) (p : Param) :
    valueIn s { m with len := n } p = valueIn s m p := rfl

/-- `Rd` answers exactly on a readable parameter: its value, and Memory at least as long as the cell it read. -/
theorem rd_ok_iff {s : State} {m m' : Memory} {p : Param} {v : Word} :
    rd s m p = .ok (v, m') ↔
      Readable s p ∧ v = valueIn s m p ∧ m' = { m with len := max m.len (cellEnd s p) } := by
  unfold rd Readable valueIn cellEnd memRead
  cases h : paramAddr s.rb p with
  | none =>
    obtain ⟨cells, len⟩ := m
    simp [eq_comm]
  | some a =>
    dsimp only
    cases hc : checkAddr s.params a with
    | ok n =>
      obtain ⟨h1, h2, rfl⟩ := checkAddr_ok_iff.mp hc
      simp [h1, h2, Memory.grow, eq_comm]
    | error t =>
      rcases checkAddr_error_iff.mp hc with ⟨h1, -⟩ | ⟨h1, h2, -⟩ <;> simp <;> intros <;> omega

/-- `Rd` raises what `CheckAddr` of its address raises. -/
theorem rd_error_iff {s : State} {m : Memory} {p : Param} {t : Trap} :
    rd s m p = .error t ↔ ∃ a, paramAddr s.rb p = some a ∧ checkAddr s.params a = .error t := by
  unfold rd memRead
  cases h : paramAddr s.rb p with
  | none => simp
  | some a =>
    dsimp only
    cases hc : checkAddr s.params a <;> simp [hc]

/-- `WrAddr` answers exactly on a parameter that names an address in range. -/
theorem wrAddr_ok_iff {s : State} {w : Int} {p : Param} {d : Nat} : wrAddr s w p = .ok d ↔ WritesTo s p d := by
  unfold wrAddr WritesTo
  cases h : paramAddr s.rb p with
  | none => simp
  | some a =>
    simp only [checkAddr_ok_iff, Option.some.injEq]
    omega

/-- `WrAddr` raises `InvalidWriteTarget` on an immediate parameter, else what `CheckAddr` raises. -/
theorem wrAddr_error_iff {s : State} {w : Int} {p : Param} {t : Trap} :
    wrAddr s w p = .error t ↔
      (paramAddr s.rb p = none ∧ t = ⟨.invalidWriteTarget, w⟩) ∨
        ∃ a, paramAddr s.rb p = some a ∧ checkAddr s.params a = .error t := by
  unfold wrAddr
  cases h : paramAddr s.rb p <;> simp [eq_comm]

/-- `chk64` answers the value whose residue modulo 2^64 is the exact result's, when it is in range or `wrap` is set. -/
theorem chk64_ok_iff {p : Params} {v : Int} {w : Word} :
    chk64 p v = .ok w ↔ (InI64 v ∨ p.overflowMode = .wrap) ∧ w = BitVec.ofInt 64 v := by
  unfold chk64
  split
  · rename_i h
    exact ⟨fun e => ⟨.inl h, (Except.ok.inj e).symm⟩, fun e => congrArg _ e.2.symm⟩
  · rename_i h
    cases p.overflowMode <;> simp only [h, false_or, reduceCtorEq, false_and, true_and, Except.ok.injEq, eq_comm]

/-- `chk64` raises `ArithmeticOverflow` with the exact result, out of range and under `fault` only. -/
theorem chk64_error_iff {p : Params} {v : Int} {t : Trap} :
    chk64 p v = .error t ↔ ¬InI64 v ∧ p.overflowMode = .fault ∧ t = ⟨.arithmeticOverflow, v⟩ := by
  unfold chk64
  split
  · rename_i h
    exact iff_of_false nofun fun e => e.1 h
  · rename_i h
    cases p.overflowMode <;> simp [h, eq_comm]

/-- A step ends in the new state, or in the state before it with a fault taken. -/
theorem settle_next_iff {s t : State} {r : Except Trap State} :
    settle s r = .next t ↔ r = .ok t ∨ ∃ e, r = .error e ∧ t = s.raise e := by
  cases r <;> simp [settle, eq_comm]

/-! Operand access does not see the run state. -/

@[simp] theorem Readable_setRs (s : State) (r : RunState) (p : Param) : Readable (s.setRs r) p = Readable s p := rfl

@[simp] theorem operandValue_setRs (s : State) (r : RunState) (p : Param) :
    operandValue (s.setRs r) p = operandValue s p := rfl

@[simp] theorem cellEnd_setRs (s : State) (r : RunState) (p : Param) : cellEnd (s.setRs r) p = cellEnd s p := rfl

@[simp] theorem WritesTo_setRs (s : State) (r : RunState) (p : Param) (d : Nat) :
    WritesTo (s.setRs r) p d = WritesTo s p d := rfl

/-- An immediate parameter is readable. -/
theorem readable_of_none {s : State} {p : Param} (h : paramAddr s.rb p = none) : Readable s p := by
  intro a ha
  simp [h] at ha

/-- A parameter that names an address in range is readable. -/
theorem readable_of_some {s : State} {p : Param} {a : Int} (h : paramAddr s.rb p = some a)
    (ha : 0 ≤ a ∧ a < s.params.memMax) : Readable s p := by
  intro b hb
  obtain rfl : a = b := by simpa [h] using hb
  exact ha

/-- What a read leaves of Memory fits in `MEM_MAX` cells. -/
theorem cellEnd_le_of_readable {s : State} {p : Param} (h : Readable s p) : cellEnd s p ≤ s.params.memMax := by
  unfold cellEnd
  split
  · exact Nat.zero_le _
  · rename_i a ha
    have := h a ha
    omega

end Sys2Proof.Machine
end

