-- ==== Sys2Proof/Laws/Exec.lean ====
section
/-! SUPPORT. What each shape of instruction can answer, said once: a fault taken, or the effect of its rule. -/

namespace Sys2Proof.Machine

/-- Memory after `Rd` of the parameters `ps`: the same cells, at least as long as the cells they read. -/
def touched (s : State) (ps : List Param) : Memory :=
  { s.mem with len := ps.foldl (fun n p => max n (cellEnd s p)) s.mem.len }

/-- An instruction of format F3 answers its effect exactly when both operands are readable, the destination is an
address in range, and the operation answers. -/
theorem threeOperand_ok {op : Word → Word → Except Trap Word} {w : Int} {a b dst : Param} {s : State} {d : Nat}
    {v : Word} (ha : Readable s a) (hb : Readable s b) (hd : WritesTo s dst d)
    (hv : op (operandValue s a) (operandValue s b) = .ok v) :
    threeOperand op w a b dst s = .next ((s.setMem ((touched s [a, b]).write d v)).advance 4) := by
  unfold threeOperand
  rw [rd_ok_iff.mpr ⟨ha, rfl, rfl⟩]
  dsimp only
  rw [rd_ok_iff.mpr ⟨hb, rfl, rfl⟩]
  dsimp only
  rw [wrAddr_ok_iff.mpr hd]
  simp only [valueIn_len, valueIn_mem, hv]
  rfl

/-- What format F3 can answer. -/
theorem threeOperand_cases {op : Word → Word → Except Trap Word} {w : Int} {a b dst : Param} {s t : State}
    (h : threeOperand op w a b dst s = .next t) :
    (∃ e, t = s.raise e) ∨
      ∃ d v, Readable s a ∧ Readable s b ∧ WritesTo s dst d ∧ op (operandValue s a) (operandValue s b) = .ok v ∧
        t = (s.setMem ((touched s [a, b]).write d v)).advance 4 := by
  rcases settle_next_iff.mp h with h | ⟨e, -, rfl⟩
  · right
    split at h
    · cases h
    · rename_i ha
      obtain ⟨ra, rfl, rfl⟩ := rd_ok_iff.mp ha
      split at h
      · cases h
      · rename_i hb
        obtain ⟨rb, rfl, rfl⟩ := rd_ok_iff.mp hb
        split at h
        · cases h
        · rename_i d hd
          split at h
          · cases h
          · rename_i v hv
            simp only [valueIn_len, valueIn_mem] at hv
            exact ⟨d, v, ra, rb, wrAddr_ok_iff.mp hd, hv, (Except.ok.inj h).symm⟩
  · exact .inl ⟨e, rfl⟩

/-- What input can answer on a queue with a head. -/
theorem execInput_cases {dst : Param} {high : Nat} {s t : State} {v : Word} {rest : List Word}
    (hq : s.qin = v :: rest) (h : execInput dst high s = .next t) :
    (∃ e, t = s.raise e) ∨
      ∃ d, WritesTo s dst d ∧ t = ((s.setQin rest).setMem (s.mem.write d v)).advance 2 := by
  simp only [execInput, hq] at h
  rcases settle_next_iff.mp h with h | ⟨e, -, rfl⟩
  · right
    split at h
    · cases h
    · rename_i d hd
      exact ⟨d, wrAddr_ok_iff.mp hd, (Except.ok.inj h).symm⟩
  · exact .inl ⟨e, rfl⟩

/-- What output can answer. -/
theorem execOutput_cases {a : Param} {high : Nat} {s t : State} (h : execOutput a high s = .next t) :
    (∃ e, t = s.raise e) ∨
      Readable s a ∧ t = (((s.setMem (touched s [a])).pushOut (operandValue s a)).notify (operandValue s a)).advance 2 := by
  rcases settle_next_iff.mp h with h | ⟨e, -, rfl⟩
  · right
    split at h
    · cases h
    · rename_i ha
      obtain ⟨ra, rfl, rfl⟩ := rd_ok_iff.mp ha
      exact ⟨ra, (Except.ok.inj h).symm⟩
  · exact .inl ⟨e, rfl⟩

/-- What a jump can answer. -/
theorem jumpWhen_cases {taken : Word → Bool} {a b : Param} {s t : State} (h : jumpWhen taken a b s = .next t) :
    (∃ e, t = s.raise e) ∨
      (Readable s a ∧ Readable s b ∧ taken (operandValue s a) = true ∧
        t = (s.setMem (touched s [a, b])).setIp (operandValue s b)) ∨
      (Readable s a ∧ taken (operandValue s a) = false ∧ t = (s.setMem (touched s [a])).advance 3) := by
  rcases settle_next_iff.mp h with h | ⟨e, -, rfl⟩
  · right
    split at h
    · cases h
    · rename_i ha
      obtain ⟨ra, rfl, rfl⟩ := rd_ok_iff.mp ha
      simp only [valueIn_mem] at h
      cases ht : taken (operandValue s a) <;> simp only [ht] at h
      · exact .inr ⟨ra, rfl, (Except.ok.inj h).symm⟩
      · split at h
        · cases h
        · rename_i hb
          obtain ⟨rb, rfl, rfl⟩ := rd_ok_iff.mp hb
          exact .inl ⟨ra, rb, rfl, (Except.ok.inj h).symm⟩
  · exact .inl ⟨e, rfl⟩

/-- What adjust-relative-base can answer. -/
theorem execAdjustRelativeBase_cases {a : Param} {high : Nat} {s t : State}
    (h : execAdjustRelativeBase a high s = .next t) :
    (∃ e, t = s.raise e) ∨
      ∃ v, Readable s a ∧ chk64 s.params (s.rb.toInt + (operandValue s a).toInt) = .ok v ∧
        t = ((s.setMem (touched s [a])).setRb v).advance 2 := by
  rcases settle_next_iff.mp h with h | ⟨e, -, rfl⟩
  · right
    split at h
    · cases h
    · rename_i ha
      obtain ⟨ra, rfl, rfl⟩ := rd_ok_iff.mp ha
      split at h
      · cases h
      · rename_i v hv
        exact ⟨v, ra, hv, (Except.ok.inj h).symm⟩
  · exact .inl ⟨e, rfl⟩

/-- The state after an instruction of format F3 stored `v` into cell `d`. -/
def stored (s : State) (a b : Param) (d : Nat) (v : Word) : State :=
  (s.setMem ((touched s [a, b]).write d v)).advance 4

/-- Every way an instruction can complete without a fault: one rule for each case of the spec. -/
inductive Effect (s : State) : Instr → State → Prop
  | add {a b dst high d v} (ha : Readable s a) (hb : Readable s b) (hd : WritesTo s dst d)
      (hv : chk64 s.params ((operandValue s a).toInt + (operandValue s b).toInt) = .ok v) :
      Effect s (.add a b dst high) (stored s a b d v)
  | multiply {a b dst high d v} (ha : Readable s a) (hb : Readable s b) (hd : WritesTo s dst d)
      (hv : chk64 s.params ((operandValue s a).toInt * (operandValue s b).toInt) = .ok v) :
      Effect s (.multiply a b dst high) (stored s a b d v)
  | lessThan {a b dst high d} (ha : Readable s a) (hb : Readable s b) (hd : WritesTo s dst d) :
      Effect s (.lessThan a b dst high)
        (stored s a b d (truth (decide ((operandValue s a).toInt < (operandValue s b).toInt))))
  | equals {a b dst high d} (ha : Readable s a) (hb : Readable s b) (hd : WritesTo s dst d) :
      Effect s (.equals a b dst high) (stored s a b d (truth (decide (operandValue s a = operandValue s b))))
  | suspend {dst high} (hq : s.qin = []) : Effect s (.input dst high) s.suspend
  | input {dst high v rest d} (hq : s.qin = v :: rest) (hd : WritesTo s dst d) :
      Effect s (.input dst high) (((s.setQin rest).setMem (s.mem.write d v)).advance 2)
  | output {a high} (ha : Readable s a) :
      Effect s (.output a high)
        ((((s.setMem (touched s [a])).pushOut (operandValue s a)).notify (operandValue s a)).advance 2)
  | jumpIfTrue {a b high} (ha : Readable s a) (hb : Readable s b) (ht : operandValue s a ≠ 0#64) :
      Effect s (.jumpIfTrue a b high) ((s.setMem (touched s [a, b])).setIp (operandValue s b))
  | passIfTrue {a b high} (ha : Readable s a) (ht : operandValue s a = 0#64) :
      Effect s (.jumpIfTrue a b high) ((s.setMem (touched s [a])).advance 3)
  | jumpIfFalse {a b high} (ha : Readable s a) (hb : Readable s b) (ht : operandValue s a = 0#64) :
      Effect s (.jumpIfFalse a b high) ((s.setMem (touched s [a, b])).setIp (operandValue s b))
  | passIfFalse {a b high} (ha : Readable s a) (ht : operandValue s a ≠ 0#64) :
      Effect s (.jumpIfFalse a b high) ((s.setMem (touched s [a])).advance 3)
  | adjustRelativeBase {a high v} (ha : Readable s a)
      (hv : chk64 s.params (s.rb.toInt + (operandValue s a).toInt) = .ok v) :
      Effect s (.adjustRelativeBase a high) (((s.setMem (touched s [a])).setRb v).advance 2)
  | halt {high} : Effect s (.halt high) s.halt

/-- What an instruction can answer: a fault taken, or its effect. -/
theorem exec_next_cases {i : Instr} {s t : State} (h : exec i s = .next t) :
    (∃ e, t = s.raise e) ∨ Effect s i t := by
  cases i with
  | add a b dst high =>
    rcases threeOperand_cases h with h | ⟨d, v, ha, hb, hd, hv, rfl⟩
    · exact .inl h
    · exact .inr (.add ha hb hd hv)
  | multiply a b dst high =>
    rcases threeOperand_cases h with h | ⟨d, v, ha, hb, hd, hv, rfl⟩
    · exact .inl h
    · exact .inr (.multiply ha hb hd hv)
  | lessThan a b dst high =>
    simp only [exec, execLessThan] at h
    rcases threeOperand_cases h with h | ⟨d, v, ha, hb, hd, hv, rfl⟩
    · exact .inl h
    · cases hv
      exact .inr (.lessThan ha hb hd)
  | equals a b dst high =>
    simp only [exec, execEquals] at h
    rcases threeOperand_cases h with h | ⟨d, v, ha, hb, hd, hv, rfl⟩
    · exact .inl h
    · cases hv
      exact .inr (.equals ha hb hd)
  | input dst high =>
    cases hq : s.qin with
    | nil =>
      simp only [exec, execInput, hq, Host.Outcome.next.injEq] at h
      subst h
      exact .inr (.suspend hq)
    | cons v rest =>
      rcases execInput_cases hq h with h | ⟨d, hd, rfl⟩
      · exact .inl h
      · exact .inr (.input hq hd)
  | output a high =>
    rcases execOutput_cases (high := high) h with h | ⟨ha, rfl⟩
    · exact .inl h
    · exact .inr (.output ha)
  | jumpIfTrue a b high =>
    rcases jumpWhen_cases h with h | ⟨ha, hb, ht, rfl⟩ | ⟨ha, ht, rfl⟩
    · exact .inl h
    · exact .inr (.jumpIfTrue ha hb (by simpa using ht))
    · exact .inr (.passIfTrue ha (by simpa using ht))
  | jumpIfFalse a b high =>
    rcases jumpWhen_cases h with h | ⟨ha, hb, ht, rfl⟩ | ⟨ha, ht, rfl⟩
    · exact .inl h
    · exact .inr (.jumpIfFalse ha hb (by simpa using ht))
    · exact .inr (.passIfFalse ha (by simpa using ht))
  | adjustRelativeBase a high =>
    rcases execAdjustRelativeBase_cases (high := high) h with h | ⟨v, ha, hv, rfl⟩
    · exact .inl h
    · exact .inr (.adjustRelativeBase ha hv)
  | halt high =>
    cases h
    exact .inr .halt

end Sys2Proof.Machine
end

