-- ==== Sys2Proof/Laws/Memory.lean ====
section
/-! SUPPORT. Reading after writing, growth, and the canonical form of Memory. -/

namespace Sys2Proof.Machine

/-- A cell that stands below every listed address reads as 0. -/
theorem lookupCell_eq_zero (l : List (Nat × Word)) (a : Nat) (h : ∀ c ∈ l, c.1 ≠ a) : lookupCell l a = 0#64 := by
  induction l with
  | nil => rfl
  | cons c l ih =>
    obtain ⟨b, u⟩ := c
    have hb : a ≠ b := fun e => h (b, u) (by simp) e.symm
    simp only [lookupCell, if_neg hb]
    exact ih fun c hc => h c (by simp [hc])

/-- Another cell keeps its value, whatever the list. -/
theorem lookupCell_putCell_ne (l : List (Nat × Word)) (a c : Nat) (v : Word) (h : c ≠ a) :
    lookupCell (putCell l a v) c = lookupCell l c := by
  induction l with
  | nil => by_cases hv : v = 0#64 <;> simp [putCell, lookupCell, hv, h]
  | cons e l ih =>
    obtain ⟨b, u⟩ := e
    by_cases h1 : a < b
    · by_cases hv : v = 0#64 <;> simp [putCell, lookupCell, h1, hv, h]
    · by_cases h2 : a = b
      · subst h2
        by_cases hv : v = 0#64 <;> simp [putCell, lookupCell, hv, h]
      · simp [putCell, lookupCell, h1, h2, ih]

/-- The cell written holds what was written, in a list with rising addresses. -/
theorem lookupCell_putCell_self (l : List (Nat × Word)) (a : Nat) (v : Word)
    (h : l.Pairwise fun x y => x.1 < y.1) : lookupCell (putCell l a v) a = v := by
  induction l with
  | nil => by_cases hv : v = 0#64 <;> simp [putCell, lookupCell, hv]
  | cons e l ih =>
    obtain ⟨b, u⟩ := e
    obtain ⟨hb, hl⟩ := List.pairwise_cons.mp h
    by_cases h1 : a < b
    · by_cases hv : v = 0#64
      · subst hv
        simp only [putCell, if_pos h1, if_true]
        exact lookupCell_eq_zero _ _ fun c hc => by
          rcases List.mem_cons.mp hc with rfl | hc
          · exact Nat.ne_of_gt h1
          · exact Nat.ne_of_gt (Nat.lt_trans h1 (hb c hc))
      · simp [putCell, lookupCell, h1, hv]
    · by_cases h2 : a = b
      · subst h2
        by_cases hv : v = 0#64
        · subst hv
          simp only [putCell, if_neg h1, if_true]
          exact lookupCell_eq_zero _ _ fun c hc => Nat.ne_of_gt (hb c hc)
        · simp [putCell, lookupCell, hv]
      · simp [putCell, lookupCell, h1, h2, ih hl]

/-- Every entry after a write is an old entry or the one written, which is not zero. -/
theorem mem_putCell {l : List (Nat × Word)} {a : Nat} {v : Word} {c : Nat × Word} (h : c ∈ putCell l a v) :
    c ∈ l ∨ (c = (a, v) ∧ v ≠ 0#64) := by
  induction l with
  | nil => by_cases hv : v = 0#64 <;> simp_all [putCell]
  | cons e l ih =>
    obtain ⟨b, u⟩ := e
    simp only [putCell] at h
    split at h
    · split at h
      · exact .inl h
      · rcases List.mem_cons.mp h with rfl | h
        · exact .inr ⟨rfl, ‹_›⟩
        · exact .inl h
    · split at h
      · split at h
        · exact .inl (List.mem_cons_of_mem _ h)
        · rcases List.mem_cons.mp h with rfl | h
          · exact .inr ⟨rfl, ‹_›⟩
          · exact .inl (List.mem_cons_of_mem _ h)
      · rcases List.mem_cons.mp h with rfl | h
        · exact .inl (List.mem_cons_self ..)
        · exact (ih h).imp (List.mem_cons_of_mem _) id

/-- Writing keeps the addresses strictly rising. -/
theorem pairwise_putCell {l : List (Nat × Word)} {a : Nat} {v : Word}
    (h : l.Pairwise fun x y => x.1 < y.1) : (putCell l a v).Pairwise fun x y => x.1 < y.1 := by
  induction l with
  | nil => by_cases hv : v = 0#64 <;> simp [putCell, hv]
  | cons e l ih =>
    obtain ⟨b, u⟩ := e
    obtain ⟨hb, hl⟩ := List.pairwise_cons.mp h
    by_cases h1 : a < b
    · by_cases hv : v = 0#64
      · simpa [putCell, h1, hv] using h
      · simp only [putCell, if_pos h1, if_neg hv, List.pairwise_cons]
        refine ⟨fun c hc => ?_, hb, hl⟩
        rcases List.mem_cons.mp hc with rfl | hc
        · exact h1
        · exact Nat.lt_trans h1 (hb c hc)
    · by_cases h2 : a = b
      · subst h2
        by_cases hv : v = 0#64
        · simpa [putCell, hv] using hl
        · simp only [putCell, if_neg h1, if_neg hv, if_true, List.pairwise_cons]
          exact ⟨hb, hl⟩
      · simp only [putCell, if_neg h1, if_neg h2, List.pairwise_cons]
        refine ⟨fun c hc => ?_, ih hl⟩
        rcases mem_putCell hc with hc | ⟨rfl, -⟩
        · exact hb c hc
        · show b < a
          omega

/-- Growth changes no cell's value. -/
@[simp] theorem Memory.get_grow (m : Memory) (a c : Nat) : (m.grow a).get c = m.get c := rfl

@[simp] theorem Memory.len_grow (m : Memory) (a : Nat) : (m.grow a).len = max m.len (a + 1) := rfl

@[simp] theorem Memory.len_write (m : Memory) (a : Nat) (v : Word) : (m.write a v).len = max m.len (a + 1) := rfl

/-- A write leaves every other cell alone. -/
theorem Memory.get_write_ne (m : Memory) (a c : Nat) (v : Word) (h : c ≠ a) : (m.write a v).get c = m.get c :=
  lookupCell_putCell_ne _ _ _ _ h

/-- A read after a write gives the value written. -/
theorem Memory.get_write_self (m : Memory) (a : Nat) (v : Word) (h : m.wf) : (m.write a v).get a = v :=
  lookupCell_putCell_self _ _ _ h.1

/-- A cell at or beyond the end reads as 0. -/
theorem Memory.get_of_len_le (m : Memory) (a : Nat) (h : m.wf) (ha : m.len ≤ a) : m.get a = 0#64 :=
  lookupCell_eq_zero _ _ fun c hc => by have := (h.2 c hc).2; omega

/-- Growth keeps the canonical form. -/
theorem Memory.wf_grow {m : Memory} (h : m.wf) (a : Nat) : (m.grow a).wf :=
  ⟨h.1, fun c hc => ⟨(h.2 c hc).1, Nat.lt_of_lt_of_le (h.2 c hc).2 (Nat.le_max_left _ _)⟩⟩

/-- A write keeps the canonical form. -/
theorem Memory.wf_write {m : Memory} (h : m.wf) (a : Nat) (v : Word) : (m.write a v).wf := by
  refine ⟨pairwise_putCell h.1, fun c hc => ?_⟩
  rcases mem_putCell hc with hc | ⟨rfl, hv⟩
  · exact ⟨(h.2 c hc).1, Nat.lt_of_lt_of_le (h.2 c hc).2 (Nat.le_max_left _ _)⟩
  · exact ⟨hv, Nat.lt_of_lt_of_le (Nat.lt_succ_self a) (Nat.le_max_right _ _)⟩

/-- Placing cells keeps the canonical form. -/
theorem wf_writeCells {m : Memory} (h : m.wf) (a : Nat) (ws : List Word) : (writeCells m a ws).wf := by
  induction ws generalizing m a with
  | nil => exact h
  | cons w ws ih => exact ih (Memory.wf_write h a w) (a + 1)

/-- The entries of an image: addresses from `a` to before its end, no zero. -/
theorem mem_imageCells {a : Nat} {ws : List Word} {c : Nat × Word} (h : c ∈ imageCells a ws) :
    a ≤ c.1 ∧ c.1 < a + ws.length ∧ c.2 ≠ 0#64 := by
  induction ws generalizing a with
  | nil => simp [imageCells] at h
  | cons w ws ih =>
    by_cases hw : w = 0#64
    · simp only [imageCells, if_pos hw] at h
      obtain ⟨h1, h2, h3⟩ := ih h
      simp only [List.length_cons]
      exact ⟨by omega, by omega, h3⟩
    · simp only [imageCells, if_neg hw, List.mem_cons] at h
      rcases h with rfl | h
      · exact ⟨Nat.le_refl _, by simp, hw⟩
      · obtain ⟨h1, h2, h3⟩ := ih h
        simp only [List.length_cons]
        exact ⟨by omega, by omega, h3⟩

theorem pairwise_imageCells (a : Nat) (ws : List Word) : (imageCells a ws).Pairwise fun x y => x.1 < y.1 := by
  induction ws generalizing a with
  | nil => simp [imageCells]
  | cons w ws ih =>
    by_cases hw : w = 0#64
    · simpa [imageCells, hw] using ih (a + 1)
    · simp only [imageCells, if_neg hw, List.pairwise_cons]
      exact ⟨fun c hc => (mem_imageCells hc).1, ih (a + 1)⟩

/-- The memory of a fresh instance is in canonical form. -/
theorem wf_imageCells (ws : List Word) (n : Nat) (h : ws.length ≤ n) :
    Memory.wf { cells := imageCells 0 ws, len := n } :=
  ⟨pairwise_imageCells 0 ws, fun c hc => by
    have := mem_imageCells hc
    exact ⟨this.2.2, by show c.1 < n; omega⟩⟩

/-- The memory of the reset state is in canonical form. -/
theorem wf_reset : State.reset.mem.wf := wf_imageCells [] 0 (Nat.le_refl 0)

end Sys2Proof.Machine
end

