-- ==== Sys2Proof/Laws/PerInstr.lean ====
section
/-! SUPPORT. The family of statements about every instruction as syntax: the cells it is written in. -/

namespace Sys2Proof.Laws.EncodedShape

/-- A well-formed instruction is written in "1 + parameter count" cells (spec/30_encoding.md R80); the two low digits of
its word are the opcode (R84), digit `2 + k` is the mode digit of parameter `k` (R81), and parameter `k` is cell
`1 + k` (R80). -/
def Statement (i : Instr) : Prop :=
  i.wf = true →
    (encode i).length = i.length ∧ (encodeWord i).toNat % 100 = i.opcode ∧
      ∀ (k : Nat) (p : Param), i.params[k]? = some p →
        dig (encodeWord i).toNat (2 + k) = p.mode.digit ∧ (encode i)[1 + k]? = some p.cell

/-- A mode digit is a digit. -/
theorem digit_lt (m : Mode) : m.digit < 10 := by cases m <;> decide

/-- Digit `k` of the number the mode digits write. -/
theorem dig_modeDigits (ps : List Param) (high k : Nat) (p : Param) (h : ps[k]? = some p) :
    dig (modeDigits ps high) k = p.mode.digit := by
  induction ps generalizing k with
  | nil => simp at h
  | cons q qs ih =>
    have := digit_lt q.mode
    cases k with
    | zero =>
      obtain rfl : q = p := by simpa using h
      simp only [dig, modeDigits, pow_zero, Nat.div_one]
      omega
    | succ k =>
      rw [← ih k (by simpa using h)]
      simp only [dig, modeDigits, pow_succ', ← Nat.div_div_eq_div_mul]
      congr 2
      omega

/-- Every instruction has the shape. -/
theorem all (i : Instr) : Statement i := by
  intro h
  have hw : (encodeWord i).toNat = i.wordNat := by
    have : i.wordNat < 2 ^ 63 := by simpa [Instr.wf] using h
    simp only [encodeWord, BitVec.toNat_ofNat]
    omega
  have ho : i.opcode < 100 := by cases i <;> simp [Instr.opcode]
  refine ⟨by simp [encode, Instr.length, Nat.add_comm], ?_, fun k p hk => ⟨?_, ?_⟩⟩
  · simp only [hw, Instr.wordNat]
    omega
  · rw [hw, ← dig_modeDigits i.params i.high k p hk]
    have : i.wordNat / 100 = modeDigits i.params i.high := by
      simp only [Instr.wordNat]
      omega
    simp only [dig, pow_add, ← Nat.div_div_eq_div_mul]
    simp [this]
  · simp [encode, hk, Nat.add_comm 1]

theorem add (a b dst : Param) (high : Nat) : Statement (.add a b dst high) := all _
theorem multiply (a b dst : Param) (high : Nat) : Statement (.multiply a b dst high) := all _
theorem input (dst : Param) (high : Nat) : Statement (.input dst high) := all _
theorem output (a : Param) (high : Nat) : Statement (.output a high) := all _
theorem jumpIfTrue (a b : Param) (high : Nat) : Statement (.jumpIfTrue a b high) := all _
theorem jumpIfFalse (a b : Param) (high : Nat) : Statement (.jumpIfFalse a b high) := all _
theorem lessThan (a b dst : Param) (high : Nat) : Statement (.lessThan a b dst high) := all _
theorem equals (a b dst : Param) (high : Nat) : Statement (.equals a b dst high) := all _
theorem adjustRelativeBase (a : Param) (high : Nat) : Statement (.adjustRelativeBase a high) := all _
theorem halt (high : Nat) : Statement (.halt high) := all _

end Sys2Proof.Laws.EncodedShape
end

