-- ==== Sys2Proof/Laws/Step.lean ====
section
/-! SUPPORT. What the fetch depends on, and what the step and the run loop do in each run state. -/

namespace Sys2Proof.Machine

/-- The fetch sees Memory and `IP` only. -/
theorem fetchDecode_congr {s t : State} (hm : t.mem = s.mem) (hi : t.ip = s.ip) : fetchDecode t = fetchDecode s := by
  simp only [fetchDecode, fetchWindow, hm, hi]

theorem atInput_congr {s t : State} (hm : t.mem = s.mem) (hi : t.ip = s.ip) : atInput t = atInput s := by
  simp only [atInput, fetchDecode_congr hm hi]

@[simp] theorem fetchDecode_setRs (s : State) (r : RunState) : fetchDecode (s.setRs r) = fetchDecode s := rfl

@[simp] theorem atInput_setRs (s : State) (r : RunState) : atInput (s.setRs r) = atInput s := rfl

/-- `READY` and `SUSPENDED` take the same step (spec/49_run_and_host.md R165). -/
theorem step_of_runnable {s : State} (h : Runnable s) : step s = stepReady (s.setRs .ready) := by
  rcases h with h | h
  · simp only [step, h, State.setRs_self s .ready h]
  · simp only [step, h]

/-- The step of an instance whose next instruction decodes. -/
theorem stepReady_ok {s : State} {i : Instr} (h : fetchDecode s = .ok i) : stepReady s = exec i s := by
  simp only [stepReady, h]

/-- The step of an instance whose next instruction does not. -/
theorem stepReady_error {s : State} {t : Trap} (h : fetchDecode s = .error t) : stepReady s = .next (s.raise t) := by
  simp only [stepReady, h]

/-- A run of a `READY` or `SUSPENDED` instance is the loop from `READY`. -/
theorem run_of_runnable {s : State} (h : Runnable s) (cancel : List Bool) :
    run cancel s = runLoop cancel (s.setRs .ready) := by
  rcases h with h | h <;> simp only [run, h]

/-- What one step can be: nothing on `HALTED`, the record on `FAULTED`, else a decode fault or an instruction. -/
theorem step_next_cases {s t : State} (h : step s = .next t) :
    (s.rs = .halted ∧ t = s) ∨
      (Runnable s ∧ ((∃ e, fetchDecode s = .error e ∧ t = s.raise e) ∨
        ∃ i, fetchDecode s = .ok i ∧ exec i (s.setRs .ready) = .next t)) := by
  by_cases hr : Runnable s
  · rw [step_of_runnable hr] at h
    refine .inr ⟨hr, ?_⟩
    cases hd : fetchDecode s with
    | error e =>
      rw [stepReady_error (by simpa using hd)] at h
      exact .inl ⟨e, rfl, (Host.Outcome.next.inj h).symm⟩
    | ok i =>
      rw [stepReady_ok (by simpa using hd)] at h
      exact .inr ⟨i, rfl, h⟩
  · cases hs : s.rs with
    | ready => exact absurd (.inl hs) hr
    | suspended => exact absurd (.inr hs) hr
    | faulted => simp [step, hs] at h
    | halted =>
      simp only [step, hs] at h
      exact .inl ⟨rfl, (Host.Outcome.next.inj h).symm⟩

end Sys2Proof.Machine
end

