-- ==== Sys2Proof/Laws/Topology.lean ====
section
/-! SUPPORT. What linking and bridging do to each instance. -/

namespace Sys2Proof.Machine

/-- The values that notifications bring to instance `k`, in order. -/
def valuesFor (ns : List Notice) (k : Nat) : List Word :=
  (ns.filter (fun n => n.consumer = .vm k)).map Notice.value

/-- The bridge pushes to each instance the values notified to it, and changes nothing else. -/
theorem deliver_get (ns : List Notice) (vms : List State) (k : Nat) :
    (deliver ns vms)[k]? = vms[k]?.map (fun s => { s with qin := s.qin ++ valuesFor ns k }) := by
  induction ns generalizing vms with
  | nil =>
    cases h : vms[k]? <;> simp [deliver, valuesFor, h]
  | cons n ns ih =>
    unfold deliver
    cases hn : n.consumer with
    | outside id => simpa [valuesFor, hn] using ih vms
    | vm j =>
      by_cases hj : j = k
      · subst hj
        cases h : vms[j]? <;> simp [ih, valuesFor, hn, h, State.pushIn]
      · cases h : vms[k]? <;> simp [ih, valuesFor, hn, h, hj]

/-- The bridge makes no instance and removes none. -/
@[simp] theorem deliver_length (ns : List Notice) (vms : List State) : (deliver ns vms).length = vms.length := by
  induction ns generalizing vms with
  | nil => rfl
  | cons n ns ih =>
    unfold deliver
    split <;> simp [ih]

/-- Linking sets the registration of each instance, and changes nothing else. -/
theorem linkFrom_get (wiring : Nat → Option Consumer) (k : Nat) (vms : List State) (i : Nat) :
    (linkFrom wiring k vms)[i]? = vms[i]?.map (setObserver (wiring (k + i))) := by
  induction vms generalizing k i with
  | nil => simp [linkFrom]
  | cons s rest ih =>
    cases i with
    | zero => simp [linkFrom]
    | succ i => simp [linkFrom, ih, Nat.add_assoc, Nat.add_comm 1]

end Sys2Proof.Machine
end

