-- ==== Sys2Proof/Tests/Slice0.lean ====
section
/-! SUPPORT. Tests: expected values are the spec's own (spec/95_test_vectors.md, named by vector), and the witnesses that
the hypotheses of the statements can be met. -/

namespace Sys2Proof.Tests

open Sys2Proof Sys2Proof.Machine

/-- The reset state with a program image written as integers, the form of spec/95_test_vectors.md. -/
def vm (img : List Int) : State :=
  let ws := img.map (BitVec.ofInt 64)
  { State.reset with mem := { cells := imageCells 0 ws, len := ws.length } }

/-- A cell value. -/
def w (v : Int) : Word := BitVec.ofInt 64 v

/-- The state one step leaves. -/
def after (s : State) : Option State :=
  match step s with
  | .next t => some t
  | .fault _ | .refused _ => none

/-- `MEM_MAX` = n. -/
def small (n : Nat) (s : State) : State := { s with params := { s.params with memMax := n } }

/-- `OVERFLOW_MODE` = wrap. -/
def wrapping (s : State) : State := { s with params := { s.params with overflowMode := .wrap } }

/-- The fault record a step leaves, when nothing but `RS` and `FC` has changed (spec/60_exceptions.md R206). -/
def faultOf (s : State) : Option FaultRecord :=
  match step s with
  | .next t => if t = { s with rs := .faulted, fc := t.fc } then t.fc else none
  | .fault _ | .refused _ => none

/-- An instruction decoded from cells written as integers. -/
def read (cells : List Int) : Option Instr := ((decode (cells.map (BitVec.ofInt 64))).toOption).map Prod.fst

/-! ### Well-formedness and decoding -/

/-- The one check: a word beyond 2^63 - 1 is no cell. 92233720368547757 is the largest `high` of a halt word. -/
theorem test_wf_refuses_a_word_beyond_a_cell : (Instr.halt 92233720368547758).wf = false := by decide

theorem test_wf_takes_the_largest_halt_word : (Instr.halt 92233720368547757).wf = true := by decide

theorem test_wf_refuses_high_digits_of_an_add :
    (Instr.add ⟨.position, 0⟩ ⟨.position, 0⟩ ⟨.position, 0⟩ 92233720368548).wf = false := by decide

/-- V5, V70: add. -/
theorem test_decode_add : read [100001, 5, 6, 7] = some (.add ⟨.position, 5⟩ ⟨.position, 6⟩ ⟨.position, 7⟩ 1) := by decide

/-- S2: multiply, the digits of 1002 taken apart in the spec's text. -/
theorem test_decode_multiply :
    read [1002, 4, 3, 4] = some (.multiply ⟨.position, 4⟩ ⟨.immediate, 3⟩ ⟨.position, 4⟩ 0) := by decide

/-- V166. -/
theorem test_decode_input : read [203, -8, 0] = some (.input ⟨.relative, w (-8)⟩ 0) := by decide

/-- V31. -/
theorem test_decode_output : read [104, -7, 99] = some (.output ⟨.immediate, w (-7)⟩ 0) := by decide

/-- V126. -/
theorem test_decode_jump_if_true :
    read [2205, 1, 2, 7, 8] = some (.jumpIfTrue ⟨.relative, 1⟩ ⟨.relative, 2⟩ 0) := by decide

/-- S5, line 12. -/
theorem test_decode_jump_if_false :
    read [1006, 101, 0, 99] = some (.jumpIfFalse ⟨.position, 101⟩ ⟨.immediate, 0⟩ 0) := by decide

/-- P2, line 16. -/
theorem test_decode_less_than :
    read [22207, -1, 0, 1] = some (.lessThan ⟨.relative, w (-1)⟩ ⟨.relative, 0⟩ ⟨.relative, 1⟩ 0) := by decide

/-- S5, line 8. -/
theorem test_decode_equals :
    read [1008, 100, 16, 101] = some (.equals ⟨.position, 100⟩ ⟨.immediate, 16⟩ ⟨.position, 101⟩ 0) := by decide

/-- V143. -/
theorem test_decode_adjust_relative_base : read [209, 1, 30] = some (.adjustRelativeBase ⟨.relative, 1⟩ 0) := by decide

/-- V4: the opcode is the word modulo 100. -/
theorem test_decode_halt : read [1099, 7] = some (.halt 10) := by decide

/-- P2's assembly, line 2, encodes to the cells it gives. -/
theorem test_encode_add :
    encode (.add ⟨.immediate, 11⟩ ⟨.immediate, 0⟩ ⟨.relative, 0⟩ 0) = [21101, 11, 0, 0] := by decide

/-- V7 to V12, V19: no opcode. -/
theorem test_unsupported_opcode :
    [faultOf (vm [0]), faultOf (vm [100, 0, 0, 0]), faultOf (vm [98]), faultOf (vm [10]), faultOf (vm [-1]),
        faultOf (vm [-99]), faultOf (vm [398])] =
      [some ⟨.unsupportedOpcode, 0, 0⟩, some ⟨.unsupportedOpcode, 0, 100⟩, some ⟨.unsupportedOpcode, 0, 98⟩,
        some ⟨.unsupportedOpcode, 0, 10⟩, some ⟨.unsupportedOpcode, 0, -1⟩, some ⟨.unsupportedOpcode, 0, -99⟩,
        some ⟨.unsupportedOpcode, 0, 398⟩] := by decide

/-- V13 to V18, V20: a mode digit above 2, before the parameter fetch and before input's queue test. -/
theorem test_unsupported_mode :
    [faultOf (vm [301, 0, 0, 0]), faultOf (vm [3001, 0, 0, 0]), faultOf (vm [90001, 0, 0, 0]), faultOf (vm [904, 0]),
        faultOf (vm [3105, 0, 0]), faultOf (vm [303, 0]), faultOf (vm [301])] =
      [some ⟨.unsupportedAddressingMode, 0, 301⟩, some ⟨.unsupportedAddressingMode, 0, 3001⟩,
        some ⟨.unsupportedAddressingMode, 0, 90001⟩, some ⟨.unsupportedAddressingMode, 0, 904⟩,
        some ⟨.unsupportedAddressingMode, 0, 3105⟩, some ⟨.unsupportedAddressingMode, 0, 303⟩,
        some ⟨.unsupportedAddressingMode, 0, 301⟩] := by decide

/-- V21 to V26: fetches outside Memory. -/
theorem test_fetch_out_of_bounds :
    [faultOf (vm [1]), faultOf (vm [1, 0, 0]), faultOf (vm [3]), faultOf (vm []), faultOf ((vm [99]).setIp 1),
        faultOf ((vm [99]).setIp (w (-5)))] =
      [some ⟨.outOfBounds, 0, 1⟩, some ⟨.outOfBounds, 0, 3⟩, some ⟨.outOfBounds, 0, 1⟩, some ⟨.outOfBounds, 0, 0⟩,
        some ⟨.outOfBounds, 1, 1⟩, some ⟨.outOfBounds, w (-5), -5⟩] := by decide

/-! ### One step of each instruction -/

/-- V71 (relative and immediate operands) and V37 (a write beyond the end grows Memory to exactly 10 cells). -/
theorem test_add :
    (after ((vm [1201, 1, -4, 5, 99, 0]).setRb 3)).map (fun t => (t.mem.get 5, t.ip)) = some (95, 4) ∧
      (after (vm [1101, 3, 4, 9])).map (fun t => (t.mem.get 9, t.mem.len, t.ip)) = some (7, 10, 4) := by decide

/-- V65, V66, V69: overflow under `fault` and `wrap`. -/
theorem test_add_overflow :
    faultOf (vm [1101, 9223372036854775807, 1, 5, 99, 0]) = some ⟨.arithmeticOverflow, 0, 9223372036854775808⟩ ∧
      (after (wrapping (vm [1101, 9223372036854775807, 1, 5, 99, 0]))).map (fun t => (t.mem.get 5, t.ip)) =
        some (w (-9223372036854775808), 4) ∧
      (after (wrapping (vm [1101, -9223372036854775808, -9223372036854775808, 5, 99, 9]))).map
        (fun t => t.mem.get 5) = some 0 := by decide

/-- V88 (the largest square that fits) and V96 (the word times itself, written over itself). -/
theorem test_multiply :
    (after (vm [1102, 3037000499, 3037000499, 5, 99, 0])).map (fun t => t.mem.get 5) = some 9223372030926249001 ∧
      (after (vm [2, 0, 0, 0, 99])).map (fun t => (t.mem.get 0, t.ip)) = some (4, 4) := by decide

/-- V85, V90. -/
theorem test_multiply_overflow :
    faultOf (vm [1102, -9223372036854775808, -1, 5, 99, 0]) = some ⟨.arithmeticOverflow, 0, 9223372036854775808⟩ ∧
      (after (wrapping (vm [1102, 3037000500, 3037000500, 5, 99, 0]))).map (fun t => t.mem.get 5) =
        some (w (-9223372036709301616)) := by decide

/-- V166 and V160: the head is popped. -/
theorem test_input :
    (after (((vm [203, -8, 0]).setRb 10).setQin [w (-4)])).map (fun t => (t.mem.get 2, t.ip, t.qin)) =
        some (w (-4), 2, []) ∧
      (after ((vm [3, 5, 99]).setQin [5, 6])).map (fun t => (t.mem.get 5, t.mem.len, t.qin)) = some (5, 6, [6]) := by
  decide

/-- V161, V162, V164: the queue is tested before the destination; nothing but `RS` changes. -/
theorem test_input_suspends :
    [after (vm [3, 5, 99]), after (vm [103, 0]), after (vm [3, -4])] =
      [some (vm [3, 5, 99]).suspend, some (vm [103, 0]).suspend, some (vm [3, -4]).suspend] := by decide

/-- V30 (a read beyond the end gives 0 and grows) with an observer registered. -/
theorem test_output :
    (after (setObserver (some (.outside 0)) (vm [4, 10, 99]))).map
        (fun t => (t.mem.len, t.ip, t.qout, t.notices)) = some (11, 2, [0], [⟨.outside 0, 0⟩]) := by decide

/-- V32, V33 and V43: relative mode, the sum exact. -/
theorem test_output_relative :
    (after ((vm [204, -3, 77]).setRb 5)).map (fun t => (t.ip, t.qout)) = some (2, [77]) ∧
      faultOf (vm [204, -1]) = some ⟨.outOfBounds, 0, -1⟩ ∧
      faultOf ((vm [204, 5]).setRb 9223372036854775807) = some ⟨.capacityExceeded, 0, 9223372036854775812⟩ := by decide

/-- V126 and V133: taken to a relative operand; not taken, `b` is not read. -/
theorem test_jump_if_true :
    (after ((vm [2205, 1, 2, 7, 8]).setRb 2)).map State.ip = some 8 ∧
      (after (vm [105, 0, 9])).map (fun t => (t.ip, t.mem.len)) = some (3, 3) := by decide

/-- V135 and V124. -/
theorem test_jump_if_false :
    (after (vm [6, 9, 10])).map (fun t => (t.ip, t.mem.len)) = some (0, 11) ∧
      (after (vm [1106, 3, 4, 99, 99])).map State.ip = some 3 := by decide

/-- V104, V105: a signed comparison, not a subtraction. -/
theorem test_less_than :
    (after (vm [1107, -9223372036854775808, 9223372036854775807, 5, 99, -1])).map (fun t => t.mem.get 5) = some 1 ∧
      (after (vm [1107, 9223372036854775807, -9223372036854775808, 5, 99, -1])).map (fun t => t.mem.get 5) = some 0 := by
  decide

/-- V107, V113. -/
theorem test_equals :
    (after (vm [1108, 8, -8, 5, 99, -1])).map (fun t => t.mem.get 5) = some 0 ∧
      (after (vm [1108, 1, 1, 20])).map (fun t => (t.mem.get 20, t.mem.len, t.ip)) = some (1, 21, 4) := by decide

/-- V143 (the old base), V145 and V146. -/
theorem test_adjust_relative_base :
    (after ((vm [209, 1, 30]).setRb 1)).map (fun t => (t.rb, t.ip)) = some (31, 2) ∧
      faultOf ((vm [109, 1]).setRb 9223372036854775807) = some ⟨.arithmeticOverflow, 0, 9223372036854775808⟩ ∧
      (after (wrapping ((vm [109, 1]).setRb 9223372036854775807))).map State.rb = some (w (-9223372036854775808)) := by
  decide

/-- V180 and V3: only `RS` changes, `IP` stays on the halt word. -/
theorem test_halt :
    after ((vm [1101, 1, 1, 0, 99]).setIp 4) = some ((vm [1101, 1, 1, 0, 99]).setIp 4).halt ∧
      after (vm [22299]) = some (vm [22299]).halt := by decide

/-- V45 to V48, V36, V40 and V41: the order of the faults, and the last address. -/
theorem test_fault_order :
    [faultOf (vm [10001, -1, 0, 0]), faultOf (vm [11101, 9223372036854775807, 1, 0]),
        faultOf (vm [1101, 9223372036854775807, 1, -1]), faultOf (vm [1, 10, -1, 0]), faultOf (vm [11101, 3, 4, 0]),
        faultOf (small 8 (vm [1101, 3, 4, 8]))] =
      [some ⟨.outOfBounds, 0, -1⟩, some ⟨.invalidWriteTarget, 0, 11101⟩, some ⟨.outOfBounds, 0, -1⟩,
        some ⟨.outOfBounds, 0, -1⟩, some ⟨.invalidWriteTarget, 0, 11101⟩, some ⟨.capacityExceeded, 0, 8⟩] ∧
      (after (small 8 (vm [1101, 3, 4, 7]))).map (fun t => (t.mem.get 7, t.mem.len)) = some (7, 8) := by decide

/-! ### Reset, host operations, topologies -/

/-- V201, V202, V205 and V206. -/
theorem test_reset :
    ((construct Params.default [1, 2, 3] (some 5)).toOption.map memorySnapshot = some [1, 2, 3, 0, 0]) ∧
      ((construct Params.default [1, 2, 3] (some 2)).toOption.map memorySnapshot = some [1, 2, 3]) ∧
      construct { Params.default with memMax := 4 } [1, 2, 3, 4, 5] none = .error ⟨.capacityExceeded, 5⟩ ∧
      construct { Params.default with memMax := 8 } [99] (some 9) = .error ⟨.capacityExceeded, 9⟩ := by
  refine ⟨?_, ?_, rfl, rfl⟩ <;> decide

/-- V183 and V184: the fault is reported again, with no step. -/
theorem test_run_reports_the_fault_again :
    (run [false] (vm [0])).1 = .fault (some ⟨.unsupportedOpcode, 0, 0⟩) ∧
      run [false] (run [false] (vm [0])).2 = run [false] (vm [0]) := by decide

/-- V188, its first step: a jump to itself leaves the state as at reset, and the run is cancelled before the next. -/
theorem test_run_cancelled : run [false, true] (vm [1105, 1, 0]) = (.cancelled, vm [1105, 1, 0]) := by decide

/-- V214: all halted, no final signal. -/
theorem test_feedback_loop_without_output :
    (feedbackLoop Params.default [99] [1, 2, 3] 0 1 1).1 = .noSignal := by decide

/-- V213's end of round: one halted, one suspended on an empty queue. -/
theorem test_deadlocked :
    deadlocked [(vm [99]).halt, (vm [3, 0]).suspend] = true ∧
      deadlocked [(vm [99]).halt, ((vm [3, 0]).suspend).pushIn 1] = false := by decide

/-! ### What the host's own probes use -/

/-- The word of a row, operand cells of zeros. -/
theorem test_table_word :
    decodeTableWord 64 4 = some (.output ⟨.position, 0⟩ 0) ∧ decodeTableWord 64 99 = some (.halt 0) ∧
      decodeTableWord 192 (5 + 2 ^ 64 * 7 + 2 ^ 128 * 9) = some (.jumpIfTrue ⟨.position, 7⟩ ⟨.position, 9⟩ 0) := by
  decide

/-- `step` runs exactly the word placed, from reset: `4,0` outputs its own word (V170). -/
theorem test_with_fetch_word :
    (after (State.reset.withFetchWord 64 4)).map (fun t => (t.ip, t.qout)) = some (2, [4]) ∧
      after (State.reset.withFetchWord 64 99) = some (State.reset.withFetchWord 64 99).halt := by decide

/-! ### Witnesses: the hypotheses of every statement are met

Each theorem `witness_<name>` shows, for the statement of that name, values that meet its hypotheses together, for each
clause at a boundary of its range. -/

/-- V70 with `MEM_MAX` = 8: the destination, cell 7, is the last address. -/
def sumVm : State := small 8 (vm [1, 5, 6, 7, 99, 30, 12, 0])

theorem readable5 : Readable sumVm ⟨.position, 5⟩ := readable_of_some (a := 5) rfl (by decide)

theorem readable6 : Readable sumVm ⟨.position, 6⟩ := readable_of_some (a := 6) rfl (by decide)

theorem writes7 : WritesTo sumVm ⟨.position, 7⟩ 7 := by unfold WritesTo; decide

theorem readable_immediate (s : State) (v : Word) : Readable s ⟨.immediate, v⟩ := readable_of_none rfl

/-- The largest halt word. -/
theorem witness_DecodeInvertsEncode : (Instr.halt 92233720368547757).wf = true := by decide

theorem witness_EncodeInvertsDecode : decode [104#64, 5#64] = .ok (.output ⟨.immediate, 5#64⟩ 0, []) := rfl

/-- -1; opcodes 0 and 98; mode[2] = 9 (V15); two and three parameter cells after an add (V22). -/
theorem witness_DecodePartitionsTheWords :
    (w (-1)).toInt < 0 ∧ paramCount ((0 : Word).toNat % 100) = none ∧ paramCount ((98 : Word).toNat % 100) = none ∧
      (0 ≤ (w 90001).toInt ∧ paramCount ((w 90001).toNat % 100) = some 3 ∧ 2 < dig (w 90001).toNat (2 + 2)) ∧
      (0 ≤ (1 : Word).toInt ∧ paramCount ((1 : Word).toNat % 100) = some 3 ∧
        (∀ k, k < 3 → dig (1 : Word).toNat (2 + k) ≤ 2) ∧ [0#64, 0#64].length < 3 ∧ 3 ≤ [0#64, 0#64, 0#64].length) := by
  decide

/-- Words 4 and 1004 differ in an unexamined digit; output runs, and an add to an immediate destination faults. -/
theorem witness_UnexaminedDigitsHaveNoEffect :
    (0 ≤ (1004 : Word).toInt ∧ paramCount ((4 : Word).toNat % 100) = some 1 ∧
      (4 : Word).toNat % 10 ^ (2 + 1) = (1004 : Word).toNat % 10 ^ (2 + 1)) ∧
      decode [4#64, 0#64] = .ok (.output ⟨.position, 0#64⟩ 0, []) ∧
      (∃ t, exec (.output ⟨.immediate, 0#64⟩ 0) (vm [104, 0]) = .next t) ∧
      ∃ t, exec (.add ⟨.immediate, 1⟩ ⟨.immediate, 1⟩ ⟨.immediate, 1⟩ 0) (vm [11101, 1, 1, 1]) = .next t :=
  ⟨by decide, rfl, ⟨_, rfl⟩, ⟨_, rfl⟩⟩

/-- An image that fills `MEM_MAX` exactly; V205 and V206, which do not fit. -/
theorem witness_ResetSetsEveryPieceOfState :
    max [1#64, 2#64, 3#64].length ((none : Option Nat).getD 0) ≤ (Params.mk 3 .fault).memMax ∧
      (Params.mk 4 .fault).memMax < max [1#64, 2#64, 3#64, 4#64, 5#64].length ((none : Option Nat).getD 0) ∧
      (Params.mk 8 .fault).memMax < max [99#64].length ((some 9 : Option Nat).getD 0) := by decide

theorem witness_SnapshotAfterResetIsTheImage : ∃ s, construct Params.default [1#64, 2#64, 3#64] (some 5) = .ok s :=
  ⟨_, rfl⟩

theorem witness_HaltedIsFinal : (vm [99]).halt.rs = .halted ∧ ∀ img n, HostOp.push 1 ≠ .new img n := by
  refine ⟨rfl, fun img n h => ?_⟩
  cases h

theorem witness_FaultedIsFinal :
    ((vm [0]).raise ⟨.unsupportedOpcode, 0⟩).rs = .faulted ∧ ∀ img n, HostOp.run [] ≠ .new img n := by
  refine ⟨rfl, fun img n h => ?_⟩
  cases h

/-- -1, the last address, `MEM_MAX`, and 2^63 with the default parameters. -/
theorem witness_AddressCheckIsExact :
    (-1 : Int) < 0 ∧ ((0 : Int) ≤ 8 ∧ ((Params.mk 8 .fault).memMax : Int) ≤ 8) ∧
      ((0 : Int) ≤ 7 ∧ (7 : Int) < (Params.mk 8 .fault).memMax) ∧ (Params.default.Wf ∧ (2 : Int) ^ 63 ≤ 2 ^ 63) := by
  decide

/-- A position parameter at the last cell, at the end of Memory and at `MEM_MAX`; a relative one at -1. -/
theorem witness_ReadParameterByMode :
    (vm [204, -1, 77]).mem.wf ∧ (3 : Word).toInt = 3 ∧ BadAddress (small 8 (vm [4])) 8 ∧
      (¬BadAddress (vm [204, -1, 77]) 2 ∧ (2 : Int) < (vm [204, -1, 77]).mem.len) ∧
      (¬BadAddress (vm [204, -1, 77]) 3 ∧ ((vm [204, -1, 77]).mem.len : Int) ≤ 3) ∧
      ((vm [204, -1, 77]).rb.toInt + (w (-1)).toInt = -1 ∧ BadAddress (vm [204, -1, 77]) (-1)) := by
  unfold BadAddress
  decide

/-- 2^63 - 1, and 2^63 under each mode. -/
theorem witness_ResultCheckKeepsOrFaultsOrWraps :
    ((-2 : Int) ^ 63 ≤ 2 ^ 63 - 1 ∧ (2 : Int) ^ 63 - 1 ≤ 2 ^ 63 - 1) ∧
      ¬(-2 ^ 63 ≤ (2 : Int) ^ 63 ∧ (2 : Int) ^ 63 ≤ 2 ^ 63 - 1) ∧ (Params.mk 8 .fault).overflowMode = .fault ∧
      (Params.mk 8 .wrap).overflowMode = .wrap := by decide

theorem witness_AddStoresTheExactSum :
    sumVm.Inv ∧ Readable sumVm ⟨.position, 5⟩ ∧ Readable sumVm ⟨.position, 6⟩ ∧ WritesTo sumVm ⟨.position, 7⟩ 7 ∧
      InI64 ((operandValue sumVm ⟨.position, 5⟩).toInt + (operandValue sumVm ⟨.position, 6⟩).toInt) :=
  ⟨by decide, readable5, readable6, writes7, by decide⟩

theorem witness_MultiplyStoresTheExactProduct :
    sumVm.Inv ∧ Readable sumVm ⟨.position, 5⟩ ∧ Readable sumVm ⟨.position, 6⟩ ∧ WritesTo sumVm ⟨.position, 7⟩ 7 ∧
      InI64 ((operandValue sumVm ⟨.position, 5⟩).toInt * (operandValue sumVm ⟨.position, 6⟩).toInt) :=
  ⟨by decide, readable5, readable6, writes7, by decide⟩

theorem witness_LessThanStoresItsTruthValue :
    sumVm.Inv ∧ Readable sumVm ⟨.position, 5⟩ ∧ Readable sumVm ⟨.position, 6⟩ ∧ WritesTo sumVm ⟨.position, 7⟩ 7 :=
  ⟨by decide, readable5, readable6, writes7⟩

theorem witness_EqualsStoresItsTruthValue :
    sumVm.Inv ∧ Readable sumVm ⟨.position, 6⟩ ∧ Readable sumVm ⟨.immediate, 12⟩ ∧ WritesTo sumVm ⟨.position, 7⟩ 7 :=
  ⟨by decide, readable6, readable_immediate _ _, writes7⟩

/-- V66, V86 and V146. -/
theorem witness_OverflowWrapsUnderWrap :
    (wrapping sumVm).Inv ∧ (wrapping sumVm).params.overflowMode = .wrap ∧
      Readable (wrapping sumVm) ⟨.immediate, 9223372036854775807⟩ ∧ Readable (wrapping sumVm) ⟨.immediate, 1⟩ ∧
      Readable (wrapping sumVm) ⟨.immediate, w (-1)⟩ ∧ Readable (wrapping sumVm) ⟨.immediate, w (-2 ^ 63)⟩ ∧
      WritesTo (wrapping sumVm) ⟨.position, 7⟩ 7 ∧
      ¬InI64 ((operandValue (wrapping sumVm) ⟨.immediate, 9223372036854775807⟩).toInt +
        (operandValue (wrapping sumVm) ⟨.immediate, 1⟩).toInt) ∧
      ¬InI64 ((operandValue (wrapping sumVm) ⟨.immediate, w (-2 ^ 63)⟩).toInt *
        (operandValue (wrapping sumVm) ⟨.immediate, w (-1)⟩).toInt) ∧
      ((wrapping (sumVm.setRb 9223372036854775807)).Inv ∧
        (wrapping (sumVm.setRb 9223372036854775807)).params.overflowMode = .wrap ∧
        Readable (wrapping (sumVm.setRb 9223372036854775807)) ⟨.immediate, 1⟩ ∧
        ¬InI64 ((wrapping (sumVm.setRb 9223372036854775807)).rb.toInt +
          (operandValue (wrapping (sumVm.setRb 9223372036854775807)) ⟨.immediate, 1⟩).toInt)) :=
  ⟨by decide, rfl, readable_immediate _ _, readable_immediate _ _, readable_immediate _ _, readable_immediate _ _,
    by unfold WritesTo; decide, by decide, by decide, by decide, rfl, readable_immediate _ _, by decide⟩

/-- V160. -/
theorem witness_InputStoresTheHeadOfTheQueue :
    ((vm [3, 5, 99]).setQin [5, 6]).Inv ∧ ((vm [3, 5, 99]).setQin [5, 6]).qin = 5 :: [6] ∧
      WritesTo ((vm [3, 5, 99]).setQin [5, 6]) ⟨.position, 5⟩ 5 := ⟨by decide, rfl, by unfold WritesTo; decide⟩

/-- V162 and V23; the queue replaced by an empty one. -/
theorem witness_InputOnAnEmptyQueueSuspends :
    ((vm [103, 0]).qin = [] ∧ Runnable (vm [103, 0]) ∧
      fetchDecode (vm [103, 0]) = .ok (.input ⟨.immediate, 0#64⟩ 0) ∧ (∀ v, HostOp.setInboundQueue [] ≠ .push v) ∧
      (∀ v q, HostOp.setInboundQueue [] ≠ .setInboundQueue (v :: q)) ∧
      ∀ img n, HostOp.setInboundQueue [] ≠ .new img n) ∧
      (Runnable (vm [3]) ∧ (vm [3]).qin = [] ∧ fetchDecode (vm [3]) = .error ⟨.outOfBounds, 1⟩) := by
  refine ⟨⟨rfl, .inl rfl, rfl, ?_, ?_, ?_⟩, .inl rfl, rfl, rfl⟩ <;> intros <;> intro h <;> cases h

/-- V42's bound less one, without and with an observer. -/
theorem witness_OutputPushesAndNotifies :
    Readable sumVm ⟨.position, 7⟩ ∧ sumVm.obs = none ∧ (setObserver (some (.vm 1)) sumVm).obs = some (.vm 1) :=
  ⟨readable_of_some (a := 7) rfl (by decide), rfl, rfl⟩

/-- Cell 5 holds 30, cell 7 holds 0. -/
theorem witness_JumpIfTrueJumpsOnNonZero :
    Readable sumVm ⟨.position, 5⟩ ∧ operandValue sumVm ⟨.position, 5⟩ ≠ 0#64 ∧ Readable sumVm ⟨.immediate, w (-5)⟩ ∧
      Readable sumVm ⟨.position, 7⟩ ∧ operandValue sumVm ⟨.position, 7⟩ = 0#64 :=
  ⟨readable5, by decide, readable_immediate _ _, readable_of_some (a := 7) rfl (by decide), by decide⟩

theorem witness_JumpIfFalseJumpsOnZero :
    Readable sumVm ⟨.position, 7⟩ ∧ operandValue sumVm ⟨.position, 7⟩ = 0#64 ∧ Readable sumVm ⟨.position, 6⟩ ∧
      Readable sumVm ⟨.position, 5⟩ ∧ operandValue sumVm ⟨.position, 5⟩ ≠ 0#64 :=
  ⟨readable_of_some (a := 7) rfl (by decide), by decide, readable6, readable5, by decide⟩

/-- The largest base that can be reached. -/
theorem witness_AdjustRelativeBaseAddsToTheBase :
    Readable (sumVm.setRb 9223372036854775806) ⟨.immediate, 1⟩ ∧
      InI64 ((sumVm.setRb 9223372036854775806).rb.toInt +
        (operandValue (sumVm.setRb 9223372036854775806) ⟨.immediate, 1⟩).toInt) :=
  ⟨readable_immediate _ _, by decide⟩

/-- V1 and V3. -/
theorem witness_HaltOnlySetsTheRunState :
    Runnable (vm [99]) ∧ fetchDecode (vm [99]) = .ok (.halt 0) ∧
      (0 ≤ (w 22299).toInt ∧ (w 22299).toNat % 100 = 99) := ⟨.inl rfl, rfl, by decide⟩

/-- V48, V42, V36, V40, V65 and V162: each kind of fault in turn, and none. -/
theorem witness_TheFirstFaultMetIsRaised :
    (Runnable (vm [1, 10, -1, 0]) ∧
      fetchDecode (vm [1, 10, -1, 0]) = .ok (.add ⟨.position, 10#64⟩ ⟨.position, w (-1)⟩ ⟨.position, 0#64⟩ 0)) ∧
      effectTrap (.add ⟨.position, 10⟩ ⟨.position, w (-1)⟩ ⟨.position, 0⟩ 0) (vm [1, 10, -1, 0]) =
        some ⟨.outOfBounds, -1⟩ ∧
      effectTrap (.output ⟨.position, 8⟩ 0) sumVm = some ⟨.capacityExceeded, 8⟩ ∧
      effectTrap (.add ⟨.immediate, 3⟩ ⟨.immediate, 4⟩ ⟨.immediate, 0⟩ 0) sumVm = some ⟨.invalidWriteTarget, 11101⟩ ∧
      effectTrap (.add ⟨.immediate, 3⟩ ⟨.immediate, 4⟩ ⟨.position, 8⟩ 0) sumVm = some ⟨.capacityExceeded, 8⟩ ∧
      effectTrap (.add ⟨.immediate, 9223372036854775807⟩ ⟨.immediate, 1⟩ ⟨.position, 7⟩ 0) sumVm =
        some ⟨.arithmeticOverflow, 9223372036854775808⟩ ∧
      effectTrap (.input ⟨.immediate, 0⟩ 0) (vm [103, 0]) = none :=
  ⟨⟨.inl rfl, rfl⟩, by decide⟩

/-- V36's immediate destination, V40's address `MEM_MAX`, and V163's input with a value waiting. -/
theorem witness_BadWriteTargetFaults :
    (writeParam (.add ⟨.position, 5⟩ ⟨.position, 6⟩ ⟨.immediate, 0⟩ 0) = some ⟨.immediate, 0⟩ ∧
      firstRead (.add ⟨.position, 5⟩ ⟨.position, 6⟩ ⟨.immediate, 0⟩ 0) = some ⟨.position, 5⟩ ∧
      Readable sumVm ⟨.position, 5⟩ ∧ Readable sumVm ⟨.position, 6⟩ ∧
      ∀ p h, Instr.add ⟨.position, 5⟩ ⟨.position, 6⟩ ⟨.immediate, 0⟩ 0 ≠ .input p h) ∧
      (paramAddr sumVm.rb ⟨.position, 8⟩ = some 8 ∧ BadAddress sumVm 8) ∧
      (writeParam (.input ⟨.immediate, 0⟩ 0) = some ⟨.immediate, 0⟩ ∧ firstRead (.input ⟨.immediate, 0⟩ 0) = none ∧
        secondRead ((vm [103, 0]).setQin [1]) (.input ⟨.immediate, 0⟩ 0) = none ∧
        ((vm [103, 0]).setQin [1]).qin ≠ []) := by
  refine ⟨⟨rfl, rfl, readable5, readable6, ?_⟩, ?_, ?_⟩
  · intro p h e
    cases e
  · unfold BadAddress
    decide
  · decide

/-- V65: 2^63 is the least sum that does not fit. -/
theorem witness_OverflowFaultsUnderFault :
    exactResult sumVm (.add ⟨.immediate, 9223372036854775807⟩ ⟨.immediate, 1⟩ ⟨.position, 7⟩ 0) = some (2 ^ 63) ∧
      ¬InI64 (2 ^ 63) ∧ sumVm.params.overflowMode = .fault ∧ Readable sumVm ⟨.immediate, 9223372036854775807⟩ ∧
      Readable sumVm ⟨.immediate, 1⟩ ∧ (∃ d, WritesTo sumVm ⟨.position, 7⟩ d) ∧
      (exactResult (sumVm.setRb 9223372036854775807) (.adjustRelativeBase ⟨.immediate, 1⟩ 0) = some (2 ^ 63) ∧
        writeParam (.adjustRelativeBase ⟨.immediate, 1⟩ 0) = none) :=
  ⟨by decide, by decide, rfl, readable_immediate _ _, readable_immediate _ _, ⟨7, writes7⟩, by decide⟩

/-- An add that overflows ends `FAULTED`. -/
theorem witness_EachInstructionRaisesOnlyItsCauses :
    ∃ t, exec (.add ⟨.immediate, 9223372036854775807⟩ ⟨.immediate, 1⟩ ⟨.position, 7⟩ 0) sumVm = .next t ∧
      sumVm.rs ≠ .faulted ∧ t.rs = .faulted := ⟨_, rfl, by decide, by decide⟩

/-- V7, a decode fault; V34, a fault of an instruction. -/
theorem witness_FaultsArePrecise :
    (∃ t, step (vm [0]) = .next t ∧ t.rs = .faulted) ∧ ∃ t, step (vm [4, -1]) = .next t ∧ t.rs = .faulted :=
  ⟨⟨_, rfl, by decide⟩, _, rfl, by decide⟩

/-- An instruction that is neither adjust-relative-base nor input nor output. -/
theorem witness_RegistersChangeOnlyByTheirInstructions :
    (∃ t, exec (.halt 0) sumVm = .next t) ∧ (∀ a h, Instr.halt 0 ≠ .adjustRelativeBase a h) ∧
      (∀ p h, Instr.halt 0 ≠ .input p h) ∧ ∀ a h, Instr.halt 0 ≠ .output a h := by
  refine ⟨⟨_, rfl⟩, ?_, ?_, ?_⟩ <;> intro a h e <;> cases e

/-- The store of an add to cell 7 leaves cells 6 and 8 alone. -/
theorem witness_MemoryChangesOnlyAtTheWriteParameter :
    (∃ t, exec (.add ⟨.position, 5⟩ ⟨.position, 6⟩ ⟨.position, 7⟩ 0) sumVm = .next t) ∧
      writeParam (.add ⟨.position, 5⟩ ⟨.position, 6⟩ ⟨.position, 7⟩ 0) = some ⟨.position, 7⟩ ∧
      paramAddr sumVm.rb ⟨.position, 7⟩ ≠ some ((6 : Nat) : Int) ∧
      paramAddr sumVm.rb ⟨.position, 7⟩ ≠ some ((8 : Nat) : Int) := ⟨⟨_, rfl⟩, rfl, by decide, by decide⟩

/-- V167: input writes the word of the next instruction. -/
theorem witness_StoresAreSeenByTheNextFetch :
    ((vm [3, 2, 0]).setQin [99]).mem.wf ∧ ((vm [3, 2, 0]).setQin [99]).rs = .ready ∧
      writeParam (.input ⟨.position, 2⟩ 0) = some ⟨.position, 2⟩ ∧
      WritesTo ((vm [3, 2, 0]).setQin [99]) ⟨.position, 2⟩ 2 ∧
      ∃ t, exec (.input ⟨.position, 2⟩ 0) ((vm [3, 2, 0]).setQin [99]) = .next t ∧ t.rs = .ready :=
  ⟨by decide, rfl, rfl, by unfold WritesTo; decide, _, rfl, by decide⟩

theorem witness_StepRunsTheDecodedInstruction :
    Runnable (vm [104, 5]) ∧ decode (fetchWindow (vm [104, 5])) = .ok (.output ⟨.immediate, 5#64⟩ 0, []) :=
  ⟨.inl rfl, rfl⟩

theorem witness_AnEncodedInstructionAtIpRuns :
    Runnable (vm [99]).suspend ∧ (Instr.halt 0).wf = true ∧
      ∀ (k : Nat) (v : Word), (encode (.halt 0))[k]? = some v →
        fetch (vm [99]).suspend.mem ((vm [99]).suspend.ip.toInt + k) = .ok v := by
  refine ⟨.inr rfl, by decide, fun k v h => ?_⟩
  rcases k with _ | k
  · cases h
    rfl
  · simp [encode, Instr.params] at h

/-- V25 and V26; V11 and V9; V15; V22, whose third parameter cell is the first outside Memory. -/
theorem witness_DecodeFaultsComeInOrder :
    Runnable (vm [1, 0, 0]) ∧ ((vm [99]).mem.len : Int) ≤ ((vm [99]).setIp 1).ip.toInt ∧
      ((vm [99]).setIp (w (-5))).ip.toInt < 0 ∧ fetch (vm [1, 0, 0]).mem 0 = .ok 1#64 ∧
      (w (-1)).toInt < 0 ∧ paramCount ((98 : Word).toNat % 100) = none ∧
      (0 ≤ (w 90001).toInt ∧ paramCount ((w 90001).toNat % 100) = some 3 ∧ 2 < dig (w 90001).toNat (2 + 2)) ∧
      ((∀ j, j < 3 → dig (1 : Word).toNat (2 + j) ≤ 2) ∧
        (∀ j : Nat, j < 2 → (vm [1, 0, 0]).ip.toInt + 1 + j < (vm [1, 0, 0]).mem.len) ∧
        ((vm [1, 0, 0]).mem.len : Int) ≤ (vm [1, 0, 0]).ip.toInt + 1 + 2) :=
  ⟨.inl rfl, by decide, by decide, rfl, by decide⟩

/-- V31's output completes; V34's faults. -/
theorem witness_InstructionPointerFollowsTheTable :
    ((vm [104, 5]).Inv ∧ Runnable (vm [104, 5]) ∧ fetchDecode (vm [104, 5]) = .ok (.output ⟨.immediate, 5#64⟩ 0) ∧
      ∃ t, step (vm [104, 5]) = .next t ∧ t.rs ≠ .faulted) ∧
      (vm [4, -1]).Inv ∧ ∃ t, step (vm [4, -1]) = .next t ∧ t.rs = .faulted :=
  ⟨⟨by decide, .inl rfl, rfl, _, rfl, by decide⟩, by decide, _, rfl, by decide⟩

/-- V128, V129 and V123. -/
theorem witness_TakenJumpIsCheckedAtTheNextFetch :
    (vm [1105, 1, -5]).rs = .ready ∧ Readable (vm [1105, 1, -5]) ⟨.immediate, 1⟩ ∧
      Readable (vm [1105, 1, -5]) ⟨.immediate, w (-5)⟩ ∧
      operandValue (vm [1105, 1, -5]) ⟨.immediate, 1⟩ ≠ 0#64 ∧
      (operandValue (vm [1105, 1, -5]) ⟨.immediate, w (-5)⟩).toInt < 0 ∧
      ((vm [1105, 1, 3]).mem.len : Int) ≤ (operandValue (vm [1105, 1, 3]) ⟨.immediate, 3⟩).toInt ∧
      operandValue (vm [1106, 0, 4, 99, 99]) ⟨.immediate, 0⟩ = 0#64 ∧
      (operandValue (vm [1106, 0, 4, 99, 99]) ⟨.immediate, 4⟩).toInt < (vm [1106, 0, 4, 99, 99]).mem.len :=
  ⟨rfl, readable_immediate _ _, readable_immediate _ _, by decide, by decide, by decide, by decide, by decide⟩

theorem witness_StepAlwaysAnswersUnlessFaulted :
    (vm [99]).rs ≠ .faulted ∧ (vm [99]).halt.rs ≠ .faulted ∧ (vm [3, 0]).suspend.rs ≠ .faulted := by decide

theorem witness_EveryFreshInstanceMeetsTheInvariant :
    (Params.mk 1 .wrap).Wf ∧ ∃ s, construct (Params.mk 1 .wrap) [99#64] none = .ok s := ⟨by decide, _, rfl⟩

theorem witness_StepKeepsTheInvariant : sumVm.Inv ∧ ∃ t, step sumVm = .next t := ⟨by decide, _, rfl⟩

theorem witness_HostOperationsKeepTheInvariant : (vm [3, 0]).suspend.Inv := by decide

/-- A step that completes, and one that faults. -/
theorem witness_HiddenStateDoesNotSteerTheStep :
    (∃ t, step sumVm = .next t) ∧ ∃ t, step (vm [0]) = .next t ∧ t.rs = .faulted := ⟨⟨_, rfl⟩, _, rfl, by decide⟩

/-- An input that takes the one value there. -/
theorem witness_LaterInputsDoNotSteerTheStep :
    ∃ t, step ((vm [3, 0]).setQin [1]) = .next t ∧ t.rs ≠ .suspended := ⟨_, rfl, by decide⟩

/-- Every outcome there is. -/
theorem witness_RunOutcomeMatchesTheRunState :
    (run [false] (vm [99])).1 = .halted ∧ (run [false] (vm [3, 0])).1 = .suspended ∧
      (run [false] (vm [0])).1 = .fault (some ⟨.unsupportedOpcode, 0, 0⟩) ∧ (run [true] (vm [99])).1 = .cancelled ∧
      (run [] (vm [99])).1 = .outOfSteps := by decide

/-- V188, one step of it. -/
theorem witness_CancelledRunResumesWhereItStopped :
    run [false] (vm [1105, 1, 0]) = (.outOfSteps, vm [1105, 1, 0]) := by decide

/-- An instance that outputs, linked to its neighbour, which reads and has the values `q` waiting. -/
def linked (q : List Word) : List State := [setObserver (some (.vm 1)) (vm [104, 7, 99]), (vm [3, 0]).setQin q]

theorem witness_OutputReachesTheLinkedInstanceInTheSameStep :
    (linked [])[0]? = some (setObserver (some (.vm 1)) (vm [104, 7, 99])) ∧
      Runnable (setObserver (some (.vm 1)) (vm [104, 7, 99])) ∧
      fetchDecode (setObserver (some (.vm 1)) (vm [104, 7, 99])) = .ok (.output ⟨.immediate, 7#64⟩ 0) ∧
      Readable (setObserver (some (.vm 1)) (vm [104, 7, 99])) ⟨.immediate, 7#64⟩ :=
  ⟨rfl, .inl rfl, rfl, readable_immediate _ _⟩

theorem witness_TopologiesAreWiredAndPreloaded :
    (vm [99]).qin = [] ∧ [[1#64, 5#64], [2#64]][1]? = some [2#64] ∧ [1#64, 2#64][1]? = some 2#64 := by decide

/-- V213's end of round, and its one suspended instance alone. -/
theorem witness_DeadlockIsStable :
    (∀ s ∈ [(vm [99]).halt, (vm [3, 0]).suspend], s.Inv) ∧
      deadlocked [(vm [99]).halt, (vm [3, 0]).suspend] = true := by decide

/-- In `linked` only instance 0 links to an instance. -/
theorem linked_single_producer (q : List Word) : SingleProducer (linked q) := by
  intro i j k s u hi hj hs hu
  have H : ∀ (n : Nat) (s : State), (linked q)[n]? = some s → s.obs = some (.vm k) → n = 0 := by
    intro n s hn ho
    rcases n with _ | _ | n
    · rfl
    · cases hn
      cases ho
    · simp [linked] at hn
  rw [H i s hi hs, H j u hj hu]

/-- Instance 0 outputs to instance 1 while instance 1 takes a value it already has. -/
theorem witness_EnabledStepsCommute :
    SingleProducer (linked [1]) ∧ (∀ i, i < 2 → ((linked [1])[i]?.map enabled) = some true) :=
  ⟨linked_single_producer _, by decide⟩

/-- Instance 1 takes the value that instance 0 outputs, stores it over its word and runs out of Memory: two interleavings. -/
theorem witness_EveryInterleavingReachesTheSameNetwork :
    SingleProducer (linked []) ∧ AtRest (runSchedule [0, 1, 0, 1] (linked [])) ∧ AtRest (runSchedule [1, 0, 0, 1, 1] (linked [])) := by
  unfold AtRest
  exact ⟨linked_single_producer _, by decide, by decide⟩

/-- One instance whose output comes back to itself: `104,7,99`. -/
def ring : List State := [setObserver (some (.vm 0)) (vm [104, 7, 99])]

theorem witness_RoundRobinAndConcurrentSignalsAgree :
    SingleProducer ring ∧ (feedbackRounds 2 1 ring).1 = .signal 7 ∧
      ∀ s ∈ runSchedule [0, 0] ring, s.rs = .halted := by
  refine ⟨?_, by decide, by decide⟩
  intro i j k s u hi hj _ _
  have H : ∀ (n : Nat) (s : State), ring[n]? = some s → n = 0 := by
    intro n s hn
    rcases n with _ | n
    · rfl
    · simp [ring] at hn
  rw [H i s hi, H j u hj]

end Sys2Proof.Tests
end

section
/-! SUPPORT. The snapshot of Memory, and reading back by a fetch what an instruction stored. -/

namespace Sys2Proof.Machine

/-! ### The snapshot -/

/-- A snapshot has one value for each cell of Memory. -/
@[simp] theorem length_memorySnapshot (s : State) : (memorySnapshot s).length = s.mem.len := by
  simp [memorySnapshot]

/-- Position `k` of a snapshot holds cell `k`. -/
theorem getElem?_memorySnapshot {s : State} {k : Nat} (hk : k < s.mem.len) :
    (memorySnapshot s)[k]? = some (s.mem.get k) := by
  simp [memorySnapshot, hk]

/-! ### Fetching what was stored -/

/-- Reading parameters never shortens Memory. -/
theorem len_le_len_touched (s : State) (ps : List Param) : s.mem.len ≤ (touched s ps).len := by
  suffices h : ∀ n, n ≤ ps.foldl (fun n p => max n (cellEnd s p)) n from h _
  induction ps with
  | nil => exact Nat.le_refl
  | cons p ps ih => exact fun n => (Nat.le_max_left n _).trans (ih _)

/-- Reading parameters keeps the canonical form. -/
theorem wf_touched {s : State} (h : s.mem.wf) (ps : List Param) : (touched s ps).wf :=
  ⟨h.1, fun c hc => ⟨(h.2 c hc).1, (h.2 c hc).2.trans_le (len_le_len_touched s ps)⟩⟩

/-- A fetch of the cell just written answers the value written: the write grew Memory to hold it
(spec/20_memory.md R57). -/
theorem fetch_write_self {m : Memory} (h : m.wf) (d : Nat) (v : Word) : fetch (m.write d v) d = .ok v := by
  refine fetch_ok_iff.mpr ⟨Int.natCast_nonneg d, ?_, (Memory.get_write_self m d v h).symm⟩
  rw [Memory.len_write]
  omega

/-- A fetch of the destination of a format F3 instruction answers the value stored. -/
theorem fetch_stored {s : State} (h : s.mem.wf) (a b : Param) (d : Nat) (v : Word) :
    fetch (stored s a b d v).mem d = .ok v :=
  fetch_write_self (wf_touched h [a, b]) d v

/-- A write parameter names one address. -/
theorem WritesTo.unique {s : State} {p : Param} {d e : Nat} (hd : WritesTo s p d) (he : WritesTo s p e) : d = e :=
  Int.ofNat.inj (Option.some.inj (hd.1.symm.trans he.1))

/-- The truth value of a decided proposition. -/
theorem truth_decide (p : Prop) [Decidable p] : truth (decide p) = if p then 1#64 else 0#64 := by
  simp [truth]

/-- The completed effect of an instruction with a write parameter either suspends (input on an empty queue) or leaves
the instruction's value in the cell that the parameter names. -/
theorem Effect.suspends_or_fetch_written {i : Instr} {dst : Param} {d : Nat} {s t : State} (he : Effect s i t)
    (hm : s.mem.wf) (hp : writeParam i = some dst) (hd : WritesTo s dst d) :
    t.rs = .suspended ∨ ∃ v, writtenValue s i = some v ∧ fetch t.mem d = .ok v := by
  cases he with
  | add ha hb hd' hv =>
    cases hp
    cases hd.unique hd'
    obtain ⟨-, rfl⟩ := chk64_ok_iff.mp hv
    exact .inr ⟨_, rfl, fetch_stored hm ..⟩
  | multiply ha hb hd' hv =>
    cases hp
    cases hd.unique hd'
    obtain ⟨-, rfl⟩ := chk64_ok_iff.mp hv
    exact .inr ⟨_, rfl, fetch_stored hm ..⟩
  | lessThan ha hb hd' =>
    cases hp
    cases hd.unique hd'
    exact .inr ⟨_, by rw [truth_decide, writtenValue], fetch_stored hm ..⟩
  | equals ha hb hd' =>
    cases hp
    cases hd.unique hd'
    exact .inr ⟨_, by simp only [truth_decide, writtenValue, BitVec.toInt_inj], fetch_stored hm ..⟩
  | suspend hq => exact .inl rfl
  | input hq hd' =>
    cases hp
    cases hd.unique hd'
    exact .inr ⟨_, by rw [writtenValue, hq, List.head?_cons], fetch_write_self hm ..⟩
  | output | jumpIfTrue | passIfTrue | jumpIfFalse | passIfFalse | adjustRelativeBase | halt => cases hp

/-- Settles O37: a completed effect leaves the written value where the next fetch finds it, and the two other outcomes,
a fault and a suspension, do not leave the instance `READY`. -/
theorem storesAreSeenByTheNextFetch : Obligations.StoresAreSeenByTheNextFetch := by
  intro i dst d s t hm _ hp hd h hr
  rcases exec_next_cases h with ⟨e, rfl⟩ | he
  · simp at hr
  · rcases he.suspends_or_fetch_written hm hp hd with hs | hv
    · simp [hs] at hr
    · exact hv

/-- Settles O9: the reply is `memorySnapshot` of the state that the host operation hands back unchanged. -/
theorem snapshotReadsAllOfMemory : Obligations.SnapshotReadsAllOfMemory := fun s =>
  ⟨memorySnapshot s, rfl, length_memorySnapshot s, fun _ => getElem?_memorySnapshot⟩

end Sys2Proof.Machine
end

section
/-! SUPPORT. The decoder against the encoder: what a word and the cells after it must hold to be read as an
instruction, and which failure is answered when they do not. -/

namespace Sys2Proof
open Machine (paramCount)

/-! ### Mode digits -/

@[simp] theorem Mode.ofDigit?_digit (m : Mode) : Mode.ofDigit? m.digit = some m := by
  cases m <;> rfl

theorem Mode.ofDigit?_eq_some_iff {d : Nat} {m : Mode} : Mode.ofDigit? d = some m ↔ m.digit = d := by
  refine ⟨fun h => ?_, by rintro rfl; simp⟩
  unfold Mode.ofDigit? at h
  split at h <;> cases h <;> rfl

/-- Digits 0 to 2 name a mode. -/
theorem exists_modeOf {w : Word} {k : Nat} (h : dig w.toNat (2 + k) ≤ 2) : ∃ m, modeOf w k = some m := by
  unfold modeOf
  generalize dig w.toNat (2 + k) = d at h
  have hd : d = 0 ∨ d = 1 ∨ d = 2 := by omega
  rcases hd with rfl | rfl | rfl <;> exact ⟨_, rfl⟩

/-- Digits 3 to 9 name none. -/
theorem modeOf_eq_none {w : Word} {k : Nat} (h : 2 < dig w.toNat (2 + k)) : modeOf w k = none := by
  cases hm : modeOf w k with
  | none => rfl
  | some m =>
    have hd : m.digit = dig w.toNat (2 + k) := Mode.ofDigit?_eq_some_iff.mp hm
    have : m.digit ≤ 2 := by cases m <;> decide
    omega

/-! ### The formats -/

/-- The decoder of one opcode: its parameter count, and the format that reads its modes and parameters
(spec/30_encoding.md R84, R85). -/
inductive Format (op : Nat) : Nat → (Word → List Word → Except DecodeError (Instr × List Word)) → Prop
  | halt (h : op = 99) : Format op 0 fun w cells => .ok (.halt (w.toNat / 100), cells)
  | one {mk} (h : ∀ a high, (mk a high).opcode = op ∧ (mk a high).params = [a] ∧ (mk a high).high = high) :
      Format op 1 (decode1 mk)
  | two {mk} (h : ∀ a b high, (mk a b high).opcode = op ∧ (mk a b high).params = [a, b] ∧ (mk a b high).high = high) :
      Format op 2 (decode2 mk)
  | three {mk} (h : ∀ a b c high,
        (mk a b c high).opcode = op ∧ (mk a b c high).params = [a, b, c] ∧ (mk a b c high).high = high) :
      Format op 3 (decode3 mk)

/-- Every opcode of the table has its format, and decoding a non-negative word is decoding in that format. -/
theorem exists_format {op n : Nat} (h : paramCount op = some n) :
    ∃ f, Format op n f ∧ ∀ (w : Word) cells, 0 ≤ w.toInt → w.toNat % 100 = op → decode (w :: cells) = f w cells := by
  unfold paramCount at h
  split at h <;> cases h
  case' h_1 => refine ⟨decode3 .add, .three fun _ _ _ _ => ⟨rfl, rfl, rfl⟩, ?_⟩
  case' h_2 => refine ⟨decode3 .multiply, .three fun _ _ _ _ => ⟨rfl, rfl, rfl⟩, ?_⟩
  case' h_3 => refine ⟨decode3 .lessThan, .three fun _ _ _ _ => ⟨rfl, rfl, rfl⟩, ?_⟩
  case' h_4 => refine ⟨decode3 .equals, .three fun _ _ _ _ => ⟨rfl, rfl, rfl⟩, ?_⟩
  case' h_5 => refine ⟨decode2 .jumpIfTrue, .two fun _ _ _ => ⟨rfl, rfl, rfl⟩, ?_⟩
  case' h_6 => refine ⟨decode2 .jumpIfFalse, .two fun _ _ _ => ⟨rfl, rfl, rfl⟩, ?_⟩
  case' h_7 => refine ⟨decode1 .input, .one fun _ _ => ⟨rfl, rfl, rfl⟩, ?_⟩
  case' h_8 => refine ⟨decode1 .output, .one fun _ _ => ⟨rfl, rfl, rfl⟩, ?_⟩
  case' h_9 => refine ⟨decode1 .adjustRelativeBase, .one fun _ _ => ⟨rfl, rfl, rfl⟩, ?_⟩
  case' h_10 => refine ⟨_, .halt rfl, ?_⟩
  all_goals
    intro w cells hw ho
    simp [decode, Int.not_lt.mpr hw, ho]

/-- Every instruction has as many parameters as its opcode's row says. -/
theorem paramCount_opcode (i : Instr) : paramCount i.opcode = some i.params.length := by
  cases i <;> rfl

/-- A bad mode digit is the failure, whatever cells follow (spec/30_encoding.md R87: digits before parameters). -/
theorem Format.bad_mode {op n : Nat} {f} (hf : Format op n f) {w : Word} {cells : List Word}
    (h : ∃ k, k < n ∧ 2 < dig w.toNat (2 + k)) : f w cells = .error (.unsupportedAddressingMode w) := by
  obtain ⟨k, hk, hd⟩ := h
  have hm := modeOf_eq_none hd
  cases hf with
  | halt => omega
  | one =>
    obtain rfl : k = 0 := by omega
    simp [decode1, hm]
  | two =>
    unfold decode2
    split
    · interval_cases k <;> simp_all
    · rfl
  | three =>
    unfold decode3
    split
    · interval_cases k <;> simp_all
    · rfl

/-- Good digits and too few cells: the failure names the first parameter that is missing. -/
theorem Format.short {op n : Nat} {f} (hf : Format op n f) {w : Word} {cells : List Word}
    (hm : ∀ k, k < n → ∃ m, modeOf w k = some m) (hc : cells.length < n) :
    f w cells = .error (.noParameter cells.length) := by
  cases hf with
  | halt => omega
  | one =>
    obtain ⟨m0, h0⟩ := hm 0 (by omega)
    obtain rfl : cells = [] := List.eq_nil_of_length_eq_zero (by omega)
    simp [decode1, h0]
  | two =>
    obtain ⟨m0, h0⟩ := hm 0 (by omega)
    obtain ⟨m1, h1⟩ := hm 1 (by omega)
    match cells, hc with
    | [], _ | [_], _ => simp [decode2, h0, h1]
  | three =>
    obtain ⟨m0, h0⟩ := hm 0 (by omega)
    obtain ⟨m1, h1⟩ := hm 1 (by omega)
    obtain ⟨m2, h2⟩ := hm 2 (by omega)
    match cells, hc with
    | [], _ | [_], _ | [_, _], _ => simp [decode3, h0, h1, h2]

/-- Good digits and enough cells: an instruction, and the cells behind its parameters. -/
theorem Format.complete {op n : Nat} {f} (hf : Format op n f) {w : Word} {cells : List Word}
    (hm : ∀ k, k < n → ∃ m, modeOf w k = some m) (hc : n ≤ cells.length) :
    ∃ i, f w cells = .ok (i, cells.drop n) := by
  cases hf with
  | halt => exact ⟨_, rfl⟩
  | one =>
    obtain ⟨m0, h0⟩ := hm 0 (by omega)
    match cells, hc with
    | p0 :: rest, _ => exact ⟨_, by simp [decode1, h0]; rfl⟩
  | two =>
    obtain ⟨m0, h0⟩ := hm 0 (by omega)
    obtain ⟨m1, h1⟩ := hm 1 (by omega)
    match cells, hc with
    | p0 :: p1 :: rest, _ => exact ⟨_, by simp [decode2, h0, h1]; rfl⟩
  | three =>
    obtain ⟨m0, h0⟩ := hm 0 (by omega)
    obtain ⟨m1, h1⟩ := hm 1 (by omega)
    obtain ⟨m2, h2⟩ := hm 2 (by omega)
    match cells, hc with
    | p0 :: p1 :: p2 :: rest, _ => exact ⟨_, by simp [decode3, h0, h1, h2]; rfl⟩

/-! ### What decodes -/

/-- The word `w` and the cells after it stand for the instruction `i`, followed by `rest` (spec/30_encoding.md R80 to
R84). -/
structure Reads (w : Word) (cells : List Word) (i : Instr) (rest : List Word) : Prop where
  nonneg : 0 ≤ w.toInt
  opcode : w.toNat % 100 = i.opcode
  modes : (List.range i.params.length).map (modeOf w) = i.params.map fun p => some p.mode
  cells : cells = i.params.map Param.cell ++ rest
  high : w.toNat / 10 ^ (2 + i.params.length) = i.high

/-- The digit of the word above each parameter is its mode's. -/
theorem Reads.mode_digit {w : Word} {cells rest : List Word} {i : Instr} (h : Reads w cells i rest) {k : Nat}
    {p : Param} (hp : i.params[k]? = some p) : p.mode.digit = dig w.toNat (2 + k) := by
  have hk : k < i.params.length := (List.getElem?_eq_some_iff.mp hp).1
  have := congrArg (·[k]?) h.modes
  simp only [List.getElem?_map, hp, List.getElem?_range hk, Option.map_some, Option.some.injEq] at this
  exact Mode.ofDigit?_eq_some_iff.mp this

/-- What a format reads, the word and the cells hold. -/
theorem Format.reads {op n : Nat} {f} (hf : Format op n f) {w : Word} {cells rest : List Word} {i : Instr}
    (hw : 0 ≤ w.toInt) (ho : w.toNat % 100 = op) (h : f w cells = .ok (i, rest)) : Reads w cells i rest := by
  cases hf with
  | halt h99 =>
    cases h
    exact ⟨hw, ho.trans h99, rfl, rfl, rfl⟩
  | one hmk =>
    unfold decode1 at h
    split at h <;> try cases h
    split at h <;> cases h
    rename_i m0 h0 _ p0
    obtain ⟨hop, hp, hh⟩ := hmk ⟨m0, p0⟩ (w.toNat / 10 ^ 3)
    exact ⟨hw, by rw [ho, hop], by rw [hp]; simp [h0], by rw [hp]; rfl, by rw [hp]; exact hh.symm⟩
  | two hmk =>
    unfold decode2 at h
    split at h <;> try cases h
    split at h <;> cases h
    rename_i m0 m1 h0 h1 _ p0 p1
    obtain ⟨hop, hp, hh⟩ := hmk ⟨m0, p0⟩ ⟨m1, p1⟩ (w.toNat / 10 ^ 4)
    exact ⟨hw, by rw [ho, hop], by rw [hp]; simp [h0, h1, List.range_succ], by rw [hp]; rfl, by rw [hp]; exact hh.symm⟩
  | three hmk =>
    unfold decode3 at h
    split at h <;> try cases h
    split at h <;> cases h
    rename_i m0 m1 m2 h0 h1 h2 _ p0 p1 p2
    obtain ⟨hop, hp, hh⟩ := hmk ⟨m0, p0⟩ ⟨m1, p1⟩ ⟨m2, p2⟩ (w.toNat / 10 ^ 5)
    exact ⟨hw, by rw [ho, hop], by rw [hp]; simp [h0, h1, h2, List.range_succ], by rw [hp]; rfl,
      by rw [hp]; exact hh.symm⟩

/-- A word whose low digits are no opcode, or that is negative, is refused whatever follows. -/
theorem decode_of_no_opcode {w : Word} {cells : List Word} (h : w.toInt < 0 ∨ paramCount (w.toNat % 100) = none) :
    decode (w :: cells) = .error (.unsupportedOpcode w) := by
  rw [decode]
  split
  · rfl
  · have hp := h.resolve_left ‹_›
    split <;> simp_all [paramCount]

/-- Decoding answers `i` exactly when the word and the cells stand for it. -/
theorem decode_ok_iff {w : Word} {cells rest : List Word} {i : Instr} :
    decode (w :: cells) = .ok (i, rest) ↔ Reads w cells i rest := by
  constructor
  · intro h
    by_cases hw : w.toInt < 0
    · simp [decode_of_no_opcode (.inl hw)] at h
    · cases hn : paramCount (w.toNat % 100) with
      | none => simp [decode_of_no_opcode (.inr hn)] at h
      | some n =>
        obtain ⟨f, hf, hd⟩ := exists_format hn
        exact hf.reads (by omega) rfl (by rw [← hd w cells (by omega) rfl, h])
  · rintro ⟨hw, ho, hm, rfl, hh⟩
    cases i with
    | add | multiply | lessThan | equals =>
      simp [Instr.params, List.range_succ] at hm
      simp_all [decode, decode3, Int.not_lt.mpr hw, Instr.params, Instr.high, Instr.opcode]
    | jumpIfTrue | jumpIfFalse =>
      simp [Instr.params, List.range_succ] at hm
      simp_all [decode, decode2, Int.not_lt.mpr hw, Instr.params, Instr.high, Instr.opcode]
    | input | output | adjustRelativeBase =>
      simp [Instr.params] at hm
      simp_all [decode, decode1, Int.not_lt.mpr hw, Instr.params, Instr.high, Instr.opcode]
    | halt => simp_all [decode, Int.not_lt.mpr hw, Instr.params, Instr.high, Instr.opcode]

/-! ### The word of an instruction -/

/-- The mode digits of the word give the modes of the parameters. -/
theorem modes_of_digits {w : Word} {ps : List Param}
    (h : ∀ (k : Nat) (p : Param), ps[k]? = some p → p.mode.digit = dig w.toNat (2 + k)) :
    (List.range ps.length).map (modeOf w) = ps.map fun p => some p.mode := by
  refine List.ext_getElem (by simp) fun k _ hk => ?_
  rw [List.length_map] at hk
  simpa [modeOf] using Mode.ofDigit?_eq_some_iff.mpr (h k ps[k] (by simp [hk]))

/-- Above the mode digits stands `high`. -/
theorem modeDigits_div (ps : List Param) (high : Nat) : modeDigits ps high / 10 ^ ps.length = high := by
  induction ps with
  | nil => simp [modeDigits]
  | cons p ps ih =>
    have := Laws.EncodedShape.digit_lt p.mode
    rw [List.length_cons, pow_succ', ← Nat.div_div_eq_div_mul, modeDigits]
    convert ih using 2
    omega

/-- The number `v` is the one that its low digits, as modes, and the digits above them write. -/
theorem modeDigits_of_digits (ps : List Param) (v : Nat)
    (h : ∀ (k : Nat) (p : Param), ps[k]? = some p → p.mode.digit = dig v k) :
    modeDigits ps (v / 10 ^ ps.length) = v := by
  induction ps generalizing v with
  | nil => simp [modeDigits]
  | cons p ps ih =>
    have h0 : p.mode.digit = v % 10 := by simpa [dig] using h 0 p rfl
    have ht := ih (v / 10) fun k q hq => by
      simpa [dig, pow_succ', Nat.div_div_eq_div_mul] using h (k + 1) q (by simpa using hq)
    rw [modeDigits, List.length_cons, pow_succ', ← Nat.div_div_eq_div_mul, ht, h0]
    omega

theorem toNat_encodeWord {i : Instr} (h : i.wf = true) : (encodeWord i).toNat = i.wordNat := by
  have : i.wordNat < 2 ^ 63 := by simpa [Instr.wf] using h
  simp only [encodeWord, BitVec.toNat_ofNat]
  omega

/-- The integer of a non-negative word is its number. -/
theorem toInt_nonneg_iff {w : Word} : 0 ≤ w.toInt ↔ w.toNat < 2 ^ 63 := by
  rw [BitVec.toInt_eq_toNat_cond]
  have := w.isLt
  split <;> omega

/-- The cells of a well-formed instruction stand for it. -/
theorem reads_encode {i : Instr} (h : i.wf = true) (rest : List Word) :
    Reads (encodeWord i) (i.params.map Param.cell ++ rest) i rest := by
  obtain ⟨-, ho, hp⟩ := Laws.EncodedShape.all i h
  have hw : i.wordNat < 2 ^ 63 := by simpa [Instr.wf] using h
  refine ⟨?_, ho, modes_of_digits fun k p hk => (hp k p hk).1.symm, rfl, ?_⟩
  · rwa [toInt_nonneg_iff, toNat_encodeWord h]
  · have hop : i.opcode < 100 := by cases i <;> simp [Instr.opcode]
    have hd : i.wordNat / 10 ^ 2 = modeDigits i.params i.high := by
      rw [Instr.wordNat]
      omega
    rw [toNat_encodeWord h, pow_add, ← Nat.div_div_eq_div_mul, hd, modeDigits_div]

/-- What a word and the cells after it stand for has that word. -/
theorem Reads.wordNat_eq {w : Word} {cells rest : List Word} {i : Instr} (h : Reads w cells i rest) :
    i.wordNat = w.toNat := by
  have hd : modeDigits i.params i.high = w.toNat / 100 := by
    rw [← h.high, pow_add, ← Nat.div_div_eq_div_mul]
    refine modeDigits_of_digits _ _ fun k p hk => ?_
    rw [h.mode_digit hk, dig, dig, pow_add, ← Nat.div_div_eq_div_mul]
  have := h.opcode
  rw [Instr.wordNat, hd]
  omega

/-- Settles O2: the cells of a well-formed instruction meet every test of the decoder, whatever follows them. -/
theorem decodeInvertsEncode : Obligations.DecodeInvertsEncode := fun _ rest hi =>
  decode_ok_iff.mpr (reads_encode hi rest)

/-- Settles O3: a word has one reading, and the number that its opcode, digits and `high` write is its own. -/
theorem encodeInvertsDecode : Obligations.EncodeInvertsDecode := by
  intro cells rest i h
  cases cells with
  | nil => cases h
  | cons w cells =>
    have hr := decode_ok_iff.mp h
    have hw := hr.wordNat_eq
    refine ⟨?_, ?_⟩
    · simpa [Instr.wf, hw] using toInt_nonneg_iff.mp hr.nonneg
    · rw [encode, encodeWord, hw, BitVec.ofNat_toNat, BitVec.setWidth_eq, hr.cells, List.cons_append]

/-- The third clause of the partition: good digits and enough cells. -/
theorem decode_complete {w : Word} {cells : List Word} {n : Nat} (hw : 0 ≤ w.toInt)
    (hn : paramCount (w.toNat % 100) = some n) (hd : ∀ k, k < n → dig w.toNat (2 + k) ≤ 2) (hc : n ≤ cells.length) :
    ∃ i, Reads w cells i (cells.drop n) ∧ i.params.length = n := by
  obtain ⟨f, hf, hdec⟩ := exists_format hn
  obtain ⟨i, hi⟩ := hf.complete (fun k hk => exists_modeOf (hd k hk)) hc
  have hr : Reads w cells i (cells.drop n) := hf.reads hw rfl hi
  refine ⟨i, hr, ?_⟩
  have := paramCount_opcode i
  rw [← hr.opcode, hn] at this
  exact (Option.some.inj this).symm

/-- Settles O4: each clause is one outcome of the opcode's format. -/
theorem decodePartitionsTheWords : Obligations.DecodePartitionsTheWords := by
  refine ⟨rfl, fun w cells => ⟨fun h => decode_of_no_opcode (.inl h), fun _ h => decode_of_no_opcode (.inr h), ?_⟩⟩
  intro n hw hn
  obtain ⟨f, hf, hdec⟩ := exists_format hn
  refine ⟨fun h => ?_, fun hd hc => ?_, fun hd hc => ?_⟩
  · rw [hdec w cells hw rfl, hf.bad_mode h]
  · rw [hdec w cells hw rfl, hf.short (fun k hk => exists_modeOf (hd k hk)) hc]
  · obtain ⟨i, hr, rfl⟩ := decode_complete hw hn hd hc
    refine ⟨i, decode_ok_iff.mpr hr, hr.opcode.symm, ?_, fun k p hp => hr.mode_digit hp, hr.high.symm⟩
    have hcells := congrArg (List.take i.params.length) hr.cells
    rwa [List.take_left' (by simp), eq_comm] at hcells

/-! ### The unexamined digits -/

section WithHigh
variable (i : Instr) (h : Nat)

@[simp] theorem Instr.params_withHigh : (i.withHigh h).params = i.params := by cases i <;> rfl
@[simp] theorem Instr.opcode_withHigh : (i.withHigh h).opcode = i.opcode := by cases i <;> rfl
@[simp] theorem Instr.high_withHigh : (i.withHigh h).high = h := by cases i <;> rfl

end WithHigh

/-- A digit below weight 10^n is one of the residue modulo 10^n. -/
theorem dig_eq_of_mod_eq {v v' n k : Nat} (h : v % 10 ^ n = v' % 10 ^ n) (hk : k < n) : dig v k = dig v' k := by
  have key : ∀ u, dig u k = dig (u % 10 ^ n) k := fun u => by
    rw [dig, dig, ← Nat.add_sub_of_le (Nat.succ_le_of_lt hk), pow_add, pow_succ, Nat.mul_assoc,
      Nat.mod_mul_right_div_self, Nat.mod_mul_right_mod]
  rw [key v, key v', h]

/-- The reading of a word that differs in the unexamined digits only. -/
theorem Reads.withHigh {w w' : Word} {cells rest : List Word} {i : Instr} (hr : Reads w cells i rest)
    (hw : 0 ≤ w'.toInt) (hm : w.toNat % 10 ^ (2 + i.params.length) = w'.toNat % 10 ^ (2 + i.params.length)) :
    Reads w' cells (i.withHigh (w'.toNat / 10 ^ (2 + i.params.length))) rest := by
  refine ⟨hw, ?_, ?_, by simpa using hr.cells, by simp⟩
  · have h100 : (100 : Nat) ∣ 10 ^ (2 + i.params.length) := by rw [pow_add]; exact Dvd.intro _ rfl
    rw [Instr.opcode_withHigh, ← hr.opcode, ← Nat.mod_mod_of_dvd _ h100, ← hm, Nat.mod_mod_of_dvd _ h100]
  · refine modes_of_digits fun k p hp => ?_
    rw [Instr.params_withHigh] at hp
    have hk : k < i.params.length := (List.getElem?_eq_some_iff.mp hp).1
    rw [hr.mode_digit hp, dig_eq_of_mod_eq hm (by omega)]

/-- The decoder's half of R83: words that differ in the unexamined digits only decode to instructions that differ in
`high` only. -/
theorem decode_withHigh {w w' : Word} {n : Nat} {cells rest : List Word} {i : Instr} (hw : 0 ≤ w'.toInt)
    (hn : paramCount (w.toNat % 100) = some n) (hm : w.toNat % 10 ^ (2 + n) = w'.toNat % 10 ^ (2 + n))
    (hd : decode (w :: cells) = .ok (i, rest)) : ∃ h, decode (w' :: cells) = .ok (i.withHigh h, rest) := by
  have hr := decode_ok_iff.mp hd
  rw [hr.opcode, paramCount_opcode] at hn
  cases hn
  exact ⟨_, decode_ok_iff.mpr (hr.withHigh hw hm)⟩

end Sys2Proof
end

section
/-! SUPPORT. What an instruction does, in full: the first fault of spec/60_exceptions.md R205 (points 5 to 8), and with
none of them the effect of its rule. -/

namespace Sys2Proof.Machine

/-! ### The tests of the operands and of the result -/

/-- `CheckAddr` raises the fault of the access, or none. -/
theorem checkAddr_error_iff_accessTrap {s : State} {a : Int} {t : Trap} :
    checkAddr s.params a = .error t ↔ accessTrap s a = some t := by
  rw [checkAddr_error_iff, accessTrap, addressTrap]
  by_cases h0 : a < 0
  · simp [h0, not_le.mpr h0, eq_comm]
  · simp [h0, not_lt.mp h0, eq_comm]

theorem accessTrap_of_bad {s : State} {a : Int} (h : BadAddress s a) : accessTrap s a = some (addressTrap a) := if_pos h

theorem accessTrap_eq_none_iff {s : State} {a : Int} : accessTrap s a = none ↔ 0 ≤ a ∧ a < s.params.memMax := by
  simp [accessTrap]

theorem rd_error_iff_readTrap {s : State} {m : Memory} {p : Param} {t : Trap} :
    rd s m p = .error t ↔ readTrap s p = some t := by
  simp [rd_error_iff, checkAddr_error_iff_accessTrap, readTrap, Option.bind_eq_some_iff]

theorem readTrap_eq_none_iff {s : State} {p : Param} : readTrap s p = none ↔ Readable s p := by
  simp [readTrap, Readable, Option.bind_eq_none_iff, accessTrap_eq_none_iff]

theorem wrAddr_error_iff_writeTrap {s : State} {i : Instr} {p : Param} {t : Trap} :
    wrAddr s i.wordNat p = .error t ↔ writeTrap s i p = some t := by
  rw [wrAddr_error_iff, writeTrap]
  cases paramAddr s.rb p with
  | none => simp [eq_comm]
  | some a => simp [checkAddr_error_iff_accessTrap]

theorem writeTrap_eq_none_iff {s : State} {i : Instr} {p : Param} : writeTrap s i p = none ↔ ∃ d, WritesTo s p d := by
  cases h : writeTrap s i p with
  | some t =>
    have hw := wrAddr_error_iff_writeTrap.mpr h
    simp [← wrAddr_ok_iff (w := i.wordNat), hw]
  | none =>
    cases hw : wrAddr s i.wordNat p with
    | error t => simp [wrAddr_error_iff_writeTrap.mp hw] at h
    | ok d => simpa using ⟨d, wrAddr_ok_iff.mp hw⟩

/-- `chk64` raises the fault of the result, or none. -/
theorem chk64_error_iff_overflowTrap {s : State} {i : Instr} {v : Int} (h : exactResult s i = some v) {t : Trap} :
    chk64 s.params v = .error t ↔ overflowTrap s i = some t := by
  rw [chk64_error_iff, overflowTrap, h, Option.bind_some]
  by_cases hv : ¬InI64 v ∧ s.params.overflowMode = .fault
  · rw [if_pos hv, Option.some.injEq, ← and_assoc, and_iff_right hv, eq_comm]
  · rw [if_neg hv, ← and_assoc]
    exact iff_of_false (fun h => hv h.1) nofun

/-- Without a fault of the result, `chk64` answers. -/
theorem exists_chk64_of_no_overflowTrap {s : State} {i : Instr} {v : Int} (h : exactResult s i = some v)
    (ht : overflowTrap s i = none) : ∃ w, chk64 s.params v = .ok w := by
  cases hc : chk64 s.params v with
  | ok w => exact ⟨w, rfl⟩
  | error t => simp [(chk64_error_iff_overflowTrap h).mp hc] at ht

/-! ### Where an instruction faults -/

/-- Format F3 raises the first fault of its reads, its destination and its operation. -/
theorem threeOperand_of_trap {op : Word → Word → Except Trap Word} {i : Instr} {a b dst : Param} {s : State} {e : Trap}
    {ot : Option Trap} (hop : ∀ t, op (operandValue s a) (operandValue s b) = .error t ↔ ot = some t)
    (h : ((readTrap s a).or (readTrap s b)).or ((writeTrap s i dst).or ot) = some e) :
    threeOperand op i.wordNat a b dst s = .next (s.raise e) := by
  unfold threeOperand
  cases ha : readTrap s a with
  | some t =>
    obtain rfl : t = e := by simpa [ha] using h
    rw [rd_error_iff_readTrap.mpr ha, settle]
  | none =>
    rw [rd_ok_iff.mpr ⟨readTrap_eq_none_iff.mp ha, rfl, rfl⟩]
    dsimp only
    cases hb : readTrap s b with
    | some t =>
      obtain rfl : t = e := by simpa [ha, hb] using h
      rw [rd_error_iff_readTrap.mpr hb, settle]
    | none =>
      rw [rd_ok_iff.mpr ⟨readTrap_eq_none_iff.mp hb, rfl, rfl⟩]
      dsimp only
      cases hd : writeTrap s i dst with
      | some t =>
        obtain rfl : t = e := by simpa [ha, hb, hd] using h
        rw [wrAddr_error_iff_writeTrap.mpr hd, settle]
      | none =>
        obtain ⟨d, hd'⟩ := writeTrap_eq_none_iff.mp hd
        have ho : ot = some e := by simpa [ha, hb, hd] using h
        rw [wrAddr_ok_iff.mpr hd']
        simp only [valueIn_len, valueIn_mem, (hop e).mpr ho, settle]

/-- A jump raises the fault of its condition, or of its target when it is taken. -/
theorem jumpWhen_of_trap {taken : Word → Bool} {a b : Param} {s : State} {e : Trap}
    (h : (readTrap s a).or (if taken (operandValue s a) then readTrap s b else none) = some e) :
    jumpWhen taken a b s = .next (s.raise e) := by
  unfold jumpWhen
  cases ha : readTrap s a with
  | some t =>
    obtain rfl : t = e := by simpa [ha] using h
    rw [rd_error_iff_readTrap.mpr ha, settle]
  | none =>
    rw [rd_ok_iff.mpr ⟨readTrap_eq_none_iff.mp ha, rfl, rfl⟩]
    obtain ⟨ht, hb⟩ : taken (operandValue s a) = true ∧ readTrap s b = some e := by
      rw [ha, Option.none_or] at h
      split at h
      · exact ⟨‹_›, h⟩
      · cases h
    simp only [valueIn_mem, ht, rd_error_iff_readTrap.mpr hb, settle]

/-- An instruction raises the first fault its tests find. -/
theorem exec_of_effectTrap {i : Instr} {s : State} {e : Trap} (h : effectTrap i s = some e) :
    exec i s = .next (s.raise e) := by
  cases i with
  | add a b dst high => exact threeOperand_of_trap (fun _ => chk64_error_iff_overflowTrap rfl) h
  | multiply a b dst high => exact threeOperand_of_trap (fun _ => chk64_error_iff_overflowTrap rfl) h
  | lessThan a b dst high =>
    simp only [exec, execLessThan]
    exact threeOperand_of_trap (ot := none) (fun _ => by simp) h
  | equals a b dst high =>
    simp only [exec, execEquals]
    exact threeOperand_of_trap (ot := none) (fun _ => by simp) h
  | input dst high =>
    cases hq : s.qin with
    | nil => simp [effectTrap, hq] at h
    | cons v rest =>
      have hd : writeTrap s (.input dst high) dst = some e := by
        simpa [effectTrap, hq, firstRead, secondRead, writeParam, overflowTrap, exactResult] using h
      simp only [exec, execInput, hq, wrAddr_error_iff_writeTrap.mpr hd, settle]
  | output a high =>
    have ha : readTrap s a = some e := by
      simpa [effectTrap, firstRead, secondRead, writeParam, overflowTrap, exactResult] using h
    simp only [exec, execOutput, rd_error_iff_readTrap.mpr ha, settle]
  | jumpIfTrue a b high =>
    refine jumpWhen_of_trap ?_
    by_cases ht : operandValue s a = 0#64 <;>
      simpa [effectTrap, firstRead, secondRead, writeParam, overflowTrap, exactResult, ht] using h
  | jumpIfFalse a b high =>
    refine jumpWhen_of_trap ?_
    by_cases ht : operandValue s a = 0#64 <;>
      simpa [effectTrap, firstRead, secondRead, writeParam, overflowTrap, exactResult, ht] using h
  | adjustRelativeBase a high =>
    have h : (readTrap s a).or (overflowTrap s (.adjustRelativeBase a high)) = some e := by
      simpa [effectTrap, firstRead, secondRead, writeParam] using h
    simp only [exec, execAdjustRelativeBase]
    cases ha : readTrap s a with
    | some t =>
      obtain rfl : t = e := by simpa [ha] using h
      rw [rd_error_iff_readTrap.mpr ha, settle]
    | none =>
      rw [rd_ok_iff.mpr ⟨readTrap_eq_none_iff.mp ha, rfl, rfl⟩]
      rw [ha, Option.none_or] at h
      simp only [valueIn_mem, (chk64_error_iff_overflowTrap rfl).mpr h, settle]
  | halt high => simp [effectTrap, firstRead, secondRead, writeParam, overflowTrap, exactResult] at h

/-! ### What an instruction does when no test fails -/

/-- A jump that reads its target goes there. -/
theorem jumpWhen_taken {taken : Word → Bool} {a b : Param} {s : State} (ha : Readable s a) (hb : Readable s b)
    (ht : taken (operandValue s a) = true) :
    jumpWhen taken a b s = .next ((s.setMem (touched s [a, b])).setIp (operandValue s b)) := by
  unfold jumpWhen
  rw [rd_ok_iff.mpr ⟨ha, rfl, rfl⟩]
  simp only [valueIn_mem, ht, rd_ok_iff.mpr ⟨hb, rfl, rfl⟩]
  rfl

/-- A jump that is not taken passes on. -/
theorem jumpWhen_passed {taken : Word → Bool} {a b : Param} {s : State} (ha : Readable s a)
    (ht : taken (operandValue s a) = false) :
    jumpWhen taken a b s = .next ((s.setMem (touched s [a])).advance 3) := by
  unfold jumpWhen
  rw [rd_ok_iff.mpr ⟨ha, rfl, rfl⟩]
  simp only [valueIn_mem, ht]
  rfl

/-- Each rule of `Effect` is what the instruction answers. -/
theorem Effect.exec_eq {i : Instr} {s t : State} (he : Effect s i t) : exec i s = .next t := by
  cases he with
  | add ha hb hd hv => exact threeOperand_ok ha hb hd hv
  | multiply ha hb hd hv => exact threeOperand_ok ha hb hd hv
  | lessThan ha hb hd =>
    simp only [exec, execLessThan]
    exact threeOperand_ok ha hb hd rfl
  | equals ha hb hd =>
    simp only [exec, execEquals]
    exact threeOperand_ok ha hb hd rfl
  | suspend hq => simp only [exec, execInput, hq]
  | input hq hd =>
    simp only [exec, execInput, hq, wrAddr_ok_iff.mpr hd]
    rfl
  | output ha =>
    simp only [exec, execOutput, rd_ok_iff.mpr ⟨ha, rfl, rfl⟩]
    rfl
  | jumpIfTrue ha hb ht => exact jumpWhen_taken ha hb (by simpa using ht)
  | passIfTrue ha ht => exact jumpWhen_passed ha (by simpa using ht)
  | jumpIfFalse ha hb ht => exact jumpWhen_taken ha hb (by simpa using ht)
  | passIfFalse ha ht => exact jumpWhen_passed ha (by simpa using ht)
  | adjustRelativeBase ha hv =>
    simp only [exec, execAdjustRelativeBase, rd_ok_iff.mpr ⟨ha, rfl, rfl⟩, valueIn_mem, hv]
    rfl
  | halt => rfl

/-- When no test of format F3 fails, its operands are good and the result has no fault. -/
theorem operands_of_no_trap {i : Instr} {a b dst : Param} {s : State} {ot : Option Trap}
    (h : ((readTrap s a).or (readTrap s b)).or ((writeTrap s i dst).or ot) = none) :
    Readable s a ∧ Readable s b ∧ (∃ d, WritesTo s dst d) ∧ ot = none := by
  simpa only [Option.or_eq_none_iff, readTrap_eq_none_iff, writeTrap_eq_none_iff, and_assoc] using h

/-- With no fault, every instruction has its effect. -/
theorem exists_effect {i : Instr} {s : State} (h : effectTrap i s = none) : ∃ t, Effect s i t := by
  cases i with
  | add a b dst high =>
    obtain ⟨ha, hb, ⟨d, hd⟩, ho⟩ := operands_of_no_trap h
    obtain ⟨v, hv⟩ := exists_chk64_of_no_overflowTrap rfl ho
    exact ⟨_, .add ha hb hd hv⟩
  | multiply a b dst high =>
    obtain ⟨ha, hb, ⟨d, hd⟩, ho⟩ := operands_of_no_trap h
    obtain ⟨v, hv⟩ := exists_chk64_of_no_overflowTrap rfl ho
    exact ⟨_, .multiply ha hb hd hv⟩
  | lessThan a b dst high =>
    obtain ⟨ha, hb, ⟨d, hd⟩, -⟩ := operands_of_no_trap h
    exact ⟨_, .lessThan ha hb hd⟩
  | equals a b dst high =>
    obtain ⟨ha, hb, ⟨d, hd⟩, -⟩ := operands_of_no_trap h
    exact ⟨_, .equals ha hb hd⟩
  | input dst high =>
    cases hq : s.qin with
    | nil => exact ⟨_, .suspend hq⟩
    | cons v rest =>
      simp only [effectTrap, hq, firstRead, secondRead, writeParam, Option.bind_some, Option.or_eq_none_iff,
        writeTrap_eq_none_iff] at h
      obtain ⟨-, ⟨d, hd⟩, -⟩ := h
      exact ⟨_, .input hq hd⟩
  | output a high =>
    simp only [effectTrap, firstRead, Option.bind_some, Option.or_eq_none_iff, readTrap_eq_none_iff] at h
    exact ⟨_, .output h.1.1⟩
  | jumpIfTrue a b high =>
    simp only [effectTrap, firstRead, secondRead, Option.bind_some, Option.or_eq_none_iff, readTrap_eq_none_iff] at h
    obtain ⟨⟨ha, hb⟩, -⟩ := h
    by_cases ht : operandValue s a = 0#64
    · exact ⟨_, .passIfTrue ha ht⟩
    · exact ⟨_, .jumpIfTrue ha (by simpa [ht, readTrap_eq_none_iff] using hb) ht⟩
  | jumpIfFalse a b high =>
    simp only [effectTrap, firstRead, secondRead, Option.bind_some, Option.or_eq_none_iff, readTrap_eq_none_iff] at h
    obtain ⟨⟨ha, hb⟩, -⟩ := h
    by_cases ht : operandValue s a = 0#64
    · exact ⟨_, .jumpIfFalse ha (by simpa [ht, readTrap_eq_none_iff] using hb) ht⟩
    · exact ⟨_, .passIfFalse ha ht⟩
  | adjustRelativeBase a high =>
    simp only [effectTrap, firstRead, Option.bind_some, Option.or_eq_none_iff, readTrap_eq_none_iff] at h
    obtain ⟨⟨ha, -⟩, -, ho⟩ := h
    obtain ⟨v, hv⟩ := exists_chk64_of_no_overflowTrap rfl ho
    exact ⟨_, .adjustRelativeBase ha hv⟩
  | halt high => exact ⟨_, .halt⟩

/-- Everything an instruction can answer, with what decides it: the first fault, or no fault and its effect. -/
theorem exec_next_trap_or_effect {i : Instr} {s t : State} (h : exec i s = .next t) :
    (∃ e, effectTrap i s = some e ∧ t = s.raise e) ∨ (effectTrap i s = none ∧ Effect s i t) := by
  cases ht : effectTrap i s with
  | some e =>
    rw [exec_of_effectTrap ht] at h
    exact .inl ⟨e, rfl, (Host.Outcome.next.inj h).symm⟩
  | none =>
    obtain ⟨u, hu⟩ := exists_effect ht
    rw [hu.exec_eq] at h
    cases h
    exact .inr ⟨rfl, hu⟩

end Sys2Proof.Machine
end

section
/-! SUPPORT. The instructions one by one, where they fault, and what each leaves unchanged. -/

namespace Sys2Proof.Machine

/-! ### Operands and results -/

/-- The signed value of a word made from an integer: the residue in the signed range (spec/40_arithmetic.md R110). -/
theorem toInt_ofInt_eq (v : Int) : (BitVec.ofInt 64 v).toInt = (v + 2 ^ 63) % 2 ^ 64 - 2 ^ 63 := by
  rw [BitVec.toInt_ofInt, Int.bmod_def]
  norm_num
  split <;> omega

/-- An integer in range is the value of its word. -/
theorem toInt_ofInt_of_inI64 {v : Int} (h : InI64 v) : (BitVec.ofInt 64 v).toInt = v := by
  rw [toInt_ofInt_eq]
  obtain ⟨h1, h2⟩ := h
  omega

/-- Settles O15: the four clauses are the two answers of `CheckAddr`; the last lies beyond every `MEM_MAX`. -/
theorem addressCheckIsExact : Obligations.AddressCheckIsExact := by
  refine fun p a => ⟨fun h => checkAddr_error_iff.mpr (.inl ⟨h, rfl⟩),
    fun h0 h => checkAddr_error_iff.mpr (.inr ⟨h0, h, rfl⟩), fun h0 h => checkAddr_ok_iff.mpr ⟨h0, h, rfl⟩, ?_⟩
  rintro ⟨-, hmax⟩ ha
  have : p.memMax ≤ 2 ^ 63 - 1 := hmax
  exact checkAddr_error_iff.mpr (.inr ⟨by omega, by omega, rfl⟩)

/-- Settles O16: the mode gives the address, and `Rd` of an address answers the cell with Memory grown to hold it. -/
theorem readParameterByMode : Obligations.ReadParameterByMode := by
  intro s c hm
  refine ⟨rfl, fun p a hp => ?_⟩
  have ha : paramAddr s.rb p = some a := by
    rcases hp with ⟨rfl, rfl⟩ | ⟨rfl, rfl⟩ <;> rfl
  refine ⟨fun hbad => ?_, fun hgood => ?_⟩
  · rw [rd_error_iff_readTrap, readTrap, ha, Option.bind_some, accessTrap_of_bad hbad]
  · have hr : 0 ≤ a ∧ a < s.params.memMax := by simpa [BadAddress] using hgood
    refine ⟨_, rd_ok_iff.mpr ⟨readable_of_some ha hr, by rw [valueIn, ha], rfl⟩, fun _ => rfl, ?_, ?_⟩
    · intro hlt
      simp only [cellEnd, ha]
      omega
    · intro hle
      refine ⟨?_, Memory.get_of_len_le _ _ hm (by omega)⟩
      simp only [cellEnd, ha]
      omega

/-- Settles O17: the three cases of `chk64`. -/
theorem resultCheckKeepsOrFaultsOrWraps : Obligations.ResultCheckKeepsOrFaultsOrWraps := fun _ v =>
  ⟨fun h => ⟨_, chk64_ok_iff.mpr ⟨.inl h, rfl⟩, toInt_ofInt_of_inI64 h⟩,
    fun h hf => chk64_error_iff.mpr ⟨h, hf, rfl⟩,
    fun _ hw => ⟨_, chk64_ok_iff.mpr ⟨.inr hw, rfl⟩, toInt_ofInt_eq v⟩⟩

/-! ### Results and frames of single instructions -/

/-- What format F3 leaves: the frame of R92. -/
theorem storedF3_stored (s : State) (a b : Param) (d : Nat) (v : Word) : StoredF3 s (stored s a b d v) a b d :=
  ⟨rfl, fun _ hc => Memory.get_write_ne _ _ _ _ hc, rfl⟩

/-- The destination of format F3 holds the value stored. -/
theorem get_stored {s : State} (h : s.mem.wf) (a b : Param) (d : Nat) (v : Word) : (stored s a b d v).mem.get d = v :=
  Memory.get_write_self _ _ _ (wf_touched h [a, b])

/-- Settles O18: a sum in range passes `chk64` unchanged. -/
theorem addStoresTheExactSum : Obligations.AddStoresTheExactSum := fun _ _ _ _ _ _ hs ha hb hd hv =>
  ⟨_, (Effect.add ha hb hd (chk64_ok_iff.mpr ⟨.inl hv, rfl⟩)).exec_eq, storedF3_stored .., by
    rw [get_stored hs.1, toInt_ofInt_of_inI64 hv]⟩

/-- Settles O19: a product in range passes `chk64` unchanged. -/
theorem multiplyStoresTheExactProduct : Obligations.MultiplyStoresTheExactProduct := fun _ _ _ _ _ _ hs ha hb hd hv =>
  ⟨_, (Effect.multiply ha hb hd (chk64_ok_iff.mpr ⟨.inl hv, rfl⟩)).exec_eq, storedF3_stored .., by
    rw [get_stored hs.1, toInt_ofInt_of_inI64 hv]⟩

/-- Settles O20: the value stored is the truth value of the signed comparison. -/
theorem lessThanStoresItsTruthValue : Obligations.LessThanStoresItsTruthValue := fun _ _ _ _ _ _ hs ha hb hd =>
  ⟨_, (Effect.lessThan ha hb hd).exec_eq, storedF3_stored .., by rw [get_stored hs.1, truth_decide]⟩

/-- Settles O21: words are equal exactly when their integers are. -/
theorem equalsStoresItsTruthValue : Obligations.EqualsStoresItsTruthValue := fun _ _ _ _ _ _ hs ha hb hd =>
  ⟨_, (Effect.equals ha hb hd).exec_eq, storedF3_stored .., by
    simp only [get_stored hs.1, truth_decide, BitVec.toInt_inj]⟩

/-- Settles O22: under `wrap` `chk64` answers every result, with the word of its residue. -/
theorem overflowWrapsUnderWrap : Obligations.OverflowWrapsUnderWrap := by
  intro s hs hw
  have hchk : ∀ v, chk64 s.params v = .ok (BitVec.ofInt 64 v) := fun v => chk64_ok_iff.mpr ⟨.inr hw, rfl⟩
  refine ⟨fun a b dst high d i v ha hb hd hi _ => ?_, fun a high ha _ => ?_⟩
  · refine ⟨stored s a b d (BitVec.ofInt 64 v), ?_, storedF3_stored .., by rw [get_stored hs.1, toInt_ofInt_eq]⟩
    rcases hi with ⟨rfl, rfl⟩ | ⟨rfl, rfl⟩
    · exact (Effect.add ha hb hd (hchk _)).exec_eq
    · exact (Effect.multiply ha hb hd (hchk _)).exec_eq
  · exact ⟨_, (Effect.adjustRelativeBase ha (hchk _)).exec_eq, ⟨fun _ => rfl, rfl⟩, rfl, toInt_ofInt_eq _⟩

/-- Settles O23: the effect of input on a queue with a head. -/
theorem inputStoresTheHeadOfTheQueue : Obligations.InputStoresTheHeadOfTheQueue := fun _ _ _ _ _ _ hs hq hd =>
  ⟨_, (Effect.input hq hd).exec_eq, rfl, Memory.get_write_self _ _ _ hs.1,
    fun _ hc => Memory.get_write_ne _ _ _ _ hc, rfl⟩

/-- Settles O25: the effect of output, and the notification it records for each registration. -/
theorem outputPushesAndNotifies : Obligations.OutputPushesAndNotifies := by
  intro a high s ha
  refine ⟨_, (Effect.output ha).exec_eq, ⟨fun _ => rfl, rfl⟩, rfl, fun ho => ?_, fun c ho => ?_⟩
  · simp [ho]
  · simp [ho]

/-- Settles O26: a jump-if-true is taken or passed. -/
theorem jumpIfTrueJumpsOnNonZero : Obligations.JumpIfTrueJumpsOnNonZero := fun _ _ _ _ ha =>
  ⟨fun ht hb => ⟨_, (Effect.jumpIfTrue ha hb ht).exec_eq, ⟨fun _ => rfl, rfl⟩, rfl⟩,
    fun ht => ⟨_, (Effect.passIfTrue ha ht).exec_eq, ⟨fun _ => rfl, rfl⟩, rfl⟩⟩

/-- Settles O27: a jump-if-false is taken or passed. -/
theorem jumpIfFalseJumpsOnZero : Obligations.JumpIfFalseJumpsOnZero := fun _ _ _ _ ha =>
  ⟨fun ht hb => ⟨_, (Effect.jumpIfFalse ha hb ht).exec_eq, ⟨fun _ => rfl, rfl⟩, rfl⟩,
    fun ht => ⟨_, (Effect.passIfFalse ha ht).exec_eq, ⟨fun _ => rfl, rfl⟩, rfl⟩⟩

/-- Settles O28: a base in range passes `chk64` unchanged. -/
theorem adjustRelativeBaseAddsToTheBase : Obligations.AdjustRelativeBaseAddsToTheBase := fun _ _ _ ha hv =>
  ⟨_, (Effect.adjustRelativeBase ha (chk64_ok_iff.mpr ⟨.inl hv, rfl⟩)).exec_eq, ⟨fun _ => rfl, rfl⟩, rfl,
    toInt_ofInt_of_inI64 hv⟩

/-! ### Frames of all instructions -/

section Frames
variable {i : Instr} {s t : State}

theorem Effect.params_eq (he : Effect s i t) : t.params = s.params := by cases he <;> rfl

theorem Effect.obs_eq (he : Effect s i t) : t.obs = s.obs := by cases he <;> rfl

theorem Effect.fc_eq (he : Effect s i t) : t.fc = s.fc := by cases he <;> rfl

theorem Effect.rb_eq (he : Effect s i t) (hi : ∀ a h, i ≠ .adjustRelativeBase a h) : t.rb = s.rb := by
  cases he with
  | adjustRelativeBase => exact absurd rfl (hi _ _)
  | _ => rfl

theorem Effect.qin_eq (he : Effect s i t) (hi : ∀ p h, i ≠ .input p h) : t.qin = s.qin := by
  cases he with
  | suspend | input => exact absurd rfl (hi _ _)
  | _ => rfl

theorem Effect.qout_eq (he : Effect s i t) (hi : ∀ a h, i ≠ .output a h) :
    t.qout = s.qout ∧ t.notices = s.notices := by
  cases he with
  | output => exact absurd rfl (hi _ _)
  | _ => exact ⟨rfl, rfl⟩

/-- The run state changes by a halt or a suspension, each of which changes nothing else. -/
theorem Effect.rs_cases (he : Effect s i t) :
    t.rs = s.rs ∨ (∃ h, i = .halt h ∧ t = s.halt) ∨ ∃ p h, i = .input p h ∧ s.qin = [] ∧ t = s.suspend := by
  cases he with
  | halt => exact .inr (.inl ⟨_, rfl, rfl⟩)
  | suspend hq => exact .inr (.inr ⟨_, _, rfl, hq, rfl⟩)
  | _ => exact .inl rfl

/-- An effect is no fault. -/
theorem Effect.rs_ne_faulted (he : Effect s i t) (hs : s.rs ≠ .faulted) : t.rs ≠ .faulted := by
  rcases he.rs_cases with h | ⟨_, _, rfl⟩ | ⟨_, _, _, _, rfl⟩
  · rwa [h]
  · simp
  · simp

/-- An effect reads some readable parameters, and then writes at most the cell of the write parameter. -/
theorem Effect.mem_cases (he : Effect s i t) : ∃ ps, (∀ p ∈ ps, Readable s p) ∧
    (t.mem = touched s ps ∨
      ∃ dst d v, writeParam i = some dst ∧ WritesTo s dst d ∧ t.mem = (touched s ps).write d v) := by
  cases he with
  | add ha hb hd | multiply ha hb hd | lessThan ha hb hd | equals ha hb hd =>
    exact ⟨[_, _], by simp [ha, hb], .inr ⟨_, _, _, rfl, hd, rfl⟩⟩
  | input hq hd => exact ⟨[], by simp, .inr ⟨_, _, _, rfl, hd, rfl⟩⟩
  | jumpIfTrue ha hb | jumpIfFalse ha hb => exact ⟨[_, _], by simp [ha, hb], .inl rfl⟩
  | output ha | passIfTrue ha | passIfFalse ha | adjustRelativeBase ha => exact ⟨[_], by simp [ha], .inl rfl⟩
  | suspend | halt => exact ⟨[], by simp, .inl rfl⟩

end Frames

/-- Settles O35: a fault changes `RS` and `FC` only, and each rule of `Effect` what its instruction may. -/
theorem registersChangeOnlyByTheirInstructions : Obligations.RegistersChangeOnlyByTheirInstructions := by
  intro i s t h
  rcases exec_next_cases h with ⟨e, rfl⟩ | he
  · exact ⟨rfl, rfl, fun _ => rfl, fun _ => rfl, fun _ => ⟨rfl, rfl⟩, .inl rfl, .inl rfl⟩
  · refine ⟨he.params_eq, he.obs_eq, he.rb_eq, he.qin_eq, he.qout_eq, .inr he.fc_eq, .inr ?_⟩
    rcases he.rs_cases with hr | ⟨high, rfl, rfl⟩ | ⟨p, high, rfl, -, rfl⟩
    · exact .inl hr
    · exact .inr (.inl ⟨high, rfl, rfl⟩)
    · exact .inr (.inr ⟨p, high, rfl, rfl⟩)

/-- Settles O36: reads only lengthen Memory, and a write changes the cell its parameter names. -/
theorem memoryChangesOnlyAtTheWriteParameter : Obligations.MemoryChangesOnlyAtTheWriteParameter := by
  intro i s t h
  rcases exec_next_cases h with ⟨e, rfl⟩ | he
  · exact ⟨le_rfl, fun _ _ => rfl⟩
  · obtain ⟨ps, -, hm | ⟨dst, d, v, hp, hd, hm⟩⟩ := he.mem_cases
    · rw [hm]
      exact ⟨len_le_len_touched s ps, fun _ _ => rfl⟩
    · rw [hm]
      refine ⟨(len_le_len_touched s ps).trans (le_max_left _ _), fun c hc => ?_⟩
      refine Memory.get_write_ne _ _ _ _ fun hcd => hc dst hp ?_
      rw [hcd]
      exact hd.1

/-! ### Where the instructions fault -/

/-- An input on an empty queue tests nothing (D14). -/
theorem effectTrap_input_of_nil {s : State} (hq : s.qin = []) (dst : Param) (high : Nat) :
    effectTrap (.input dst high) s = none := by
  simp only [effectTrap, hq]

/-- The tests of every other instruction, in their order. -/
theorem effectTrap_eq {i : Instr} {s : State} (hq : ∀ p h, i = .input p h → s.qin ≠ []) :
    effectTrap i s = (((firstRead i).bind (readTrap s)).or ((secondRead s i).bind (readTrap s))).or
      (((writeParam i).bind (writeTrap s i)).or (overflowTrap s i)) := by
  unfold effectTrap
  split
  · exact absurd ‹_› (hq _ _ rfl)
  · rfl

/-- With its reads good, the write parameter and the result decide. -/
theorem effectTrap_of_readable {i : Instr} {s : State} (hq : ∀ p h, i = .input p h → s.qin ≠ [])
    (ha : ∀ a, firstRead i = some a → Readable s a) (hb : ∀ b, secondRead s i = some b → Readable s b) :
    effectTrap i s = ((writeParam i).bind (writeTrap s i)).or (overflowTrap s i) := by
  have h1 : (firstRead i).bind (readTrap s) = none :=
    Option.bind_eq_none_iff.mpr fun a h => readTrap_eq_none_iff.mpr (ha a h)
  have h2 : (secondRead s i).bind (readTrap s) = none :=
    Option.bind_eq_none_iff.mpr fun b h => readTrap_eq_none_iff.mpr (hb b h)
  rw [effectTrap_eq hq, h1, h2, Option.none_or, Option.none_or]

/-- Settles O31: with good reads the write parameter is the first test that can fail. -/
theorem badWriteTargetFaults : Obligations.BadWriteTargetFaults := by
  intro i dst s hw ha hb hq
  have key : ∀ e, writeTrap s i dst = some e → exec i s = .next (s.raise e) := fun e he => by
    refine exec_of_effectTrap ?_
    rw [effectTrap_of_readable hq ha hb, hw, Option.bind_some, he, Option.some_or]
  refine ⟨fun hmode => key _ ?_, fun n hn hbad => key _ ?_⟩
  · simp only [writeTrap, paramAddr, hmode]
  · simp only [writeTrap, hn, accessTrap_of_bad hbad]

/-- Settles O32: with every operand good the result is the one test that can fail. -/
theorem overflowFaultsUnderFault : Obligations.OverflowFaultsUnderFault := by
  intro i s v hv hr hf ha hb hd
  have hq : ∀ p h, i = .input p h → s.qin ≠ [] := by
    rintro p h rfl
    cases hv
  have hw : (writeParam i).bind (writeTrap s i) = none :=
    Option.bind_eq_none_iff.mpr fun dst h => writeTrap_eq_none_iff.mpr (hd dst h)
  refine exec_of_effectTrap ?_
  rw [effectTrap_of_readable hq ha hb, hw, Option.none_or, overflowTrap, hv, Option.bind_some, if_pos ⟨hr, hf⟩]

/-- The fault of an instruction is that of a parameter it reads, of its write parameter, or of its result. -/
theorem effectTrap_sources {i : Instr} {s : State} {e : Trap} (h : effectTrap i s = some e) :
    (∃ p, (firstRead i = some p ∨ secondRead s i = some p) ∧ readTrap s p = some e) ∨
      (∃ p, writeParam i = some p ∧ writeTrap s i p = some e) ∨ overflowTrap s i = some e := by
  have hq : ∀ p h, i = .input p h → s.qin ≠ [] := by
    rintro p h' rfl hq
    simp [effectTrap_input_of_nil hq] at h
  rw [effectTrap_eq hq] at h
  simp only [Option.or_eq_some_iff, Option.bind_eq_some_iff] at h
  rcases h with (⟨p, hp⟩ | ⟨-, p, hp⟩) | ⟨-, ⟨p, hp⟩ | ⟨-, ho⟩⟩
  · exact .inl ⟨p, .inl hp.1, hp.2⟩
  · exact .inl ⟨p, .inr hp.1, hp.2⟩
  · exact .inr (.inl ⟨p, hp⟩)
  · exact .inr (.inr ho)

theorem accessTrap_cause {s : State} {a : Int} {e : Trap} (h : accessTrap s a = some e) :
    e.cause = .outOfBounds ∨ e.cause = .capacityExceeded := by
  unfold accessTrap addressTrap at h
  split at h <;> cases h
  by_cases h0 : a < 0 <;> simp [h0]

theorem readTrap_cause {s : State} {p : Param} {e : Trap} (h : readTrap s p = some e) :
    e.cause = .outOfBounds ∨ e.cause = .capacityExceeded := by
  obtain ⟨a, -, ha⟩ := Option.bind_eq_some_iff.mp h
  exact accessTrap_cause ha

theorem writeTrap_cause {s : State} {i : Instr} {p : Param} {e : Trap} (h : writeTrap s i p = some e) :
    e.cause = .invalidWriteTarget ∨ e.cause = .outOfBounds ∨ e.cause = .capacityExceeded := by
  unfold writeTrap at h
  split at h
  · cases h
    exact .inl rfl
  · exact .inr (accessTrap_cause h)

theorem overflowTrap_eq_some {s : State} {i : Instr} {e : Trap} (h : overflowTrap s i = some e) :
    ∃ v, exactResult s i = some v ∧ s.params.overflowMode = .fault ∧ e = ⟨.arithmeticOverflow, v⟩ := by
  obtain ⟨v, hv, he⟩ := Option.bind_eq_some_iff.mp h
  split at he <;> cases he
  exact ⟨v, hv, ‹_ ∧ _›.2, rfl⟩

/-- An instruction that reads can meet a bad address. -/
theorem mem_causesOf_of_read {i : Instr} {s : State} {p : Param} (h : firstRead i = some p ∨ secondRead s i = some p) :
    .outOfBounds ∈ causesOf i ∧ .capacityExceeded ∈ causesOf i := by
  cases i <;> simp_all [causesOf, firstRead, secondRead]

/-- An instruction that writes can meet a bad target as well. -/
theorem mem_causesOf_of_write {i : Instr} {p : Param} (h : writeParam i = some p) :
    .invalidWriteTarget ∈ causesOf i ∧ .outOfBounds ∈ causesOf i ∧ .capacityExceeded ∈ causesOf i := by
  cases i <;> simp_all [causesOf, writeParam]

/-- An instruction with an exact result can overflow. -/
theorem mem_causesOf_of_result {i : Instr} {s : State} {v : Int} (h : exactResult s i = some v) :
    .arithmeticOverflow ∈ causesOf i := by
  cases i <;> simp_all [causesOf, exactResult]

/-- The fault of an instruction has one of its causes, and an overflow needs `OVERFLOW_MODE` = fault. -/
theorem effectTrap_cause {i : Instr} {s : State} {e : Trap} (h : effectTrap i s = some e) :
    e.cause ∈ causesOf i ∧ (e.cause = .arithmeticOverflow → s.params.overflowMode = .fault) := by
  rcases effectTrap_sources h with ⟨p, hp, ht⟩ | ⟨p, hp, ht⟩ | ht
  · obtain ⟨ho, hcap⟩ := mem_causesOf_of_read hp
    rcases readTrap_cause ht with hc | hc <;> rw [hc]
    · exact ⟨ho, nofun⟩
    · exact ⟨hcap, nofun⟩
  · obtain ⟨hw, ho, hcap⟩ := mem_causesOf_of_write hp
    rcases writeTrap_cause ht with hc | hc | hc <;> rw [hc]
    · exact ⟨hw, nofun⟩
    · exact ⟨ho, nofun⟩
    · exact ⟨hcap, nofun⟩
  · obtain ⟨v, hv, hf, rfl⟩ := overflowTrap_eq_some ht
    exact ⟨mem_causesOf_of_result hv, fun _ => hf⟩

/-- Settles O33: a completed effect is no fault, and a fault has its instruction's causes. -/
theorem eachInstructionRaisesOnlyItsCauses : Obligations.EachInstructionRaisesOnlyItsCauses := by
  intro i s t h hs ht
  rcases exec_next_trap_or_effect h with ⟨e, he, rfl⟩ | ⟨-, he⟩
  · obtain ⟨hc, hf⟩ := effectTrap_cause he
    exact ⟨_, rfl, rfl, hc, hf⟩
  · exact absurd ht (he.rs_ne_faulted hs)

/-! ### The effect of the unexamined digits -/

section WithHigh
variable (i : Instr) (h : Nat) (s : State)

@[simp] theorem firstRead_withHigh : firstRead (i.withHigh h) = firstRead i := by cases i <;> rfl
@[simp] theorem secondRead_withHigh : secondRead s (i.withHigh h) = secondRead s i := by cases i <;> rfl
@[simp] theorem writeParam_withHigh : writeParam (i.withHigh h) = writeParam i := by cases i <;> rfl
@[simp] theorem exactResult_withHigh : exactResult s (i.withHigh h) = exactResult s i := by cases i <;> rfl
@[simp] theorem overflowTrap_withHigh : overflowTrap s (i.withHigh h) = overflowTrap s i := by simp [overflowTrap]

end WithHigh

/-- The digits are in no effect. -/
theorem Effect.withHigh {i : Instr} {s t : State} (he : Effect s i t) (h : Nat) : Effect s (i.withHigh h) t := by
  cases he with
  | add ha hb hd hv => exact .add ha hb hd hv
  | multiply ha hb hd hv => exact .multiply ha hb hd hv
  | lessThan ha hb hd => exact .lessThan ha hb hd
  | equals ha hb hd => exact .equals ha hb hd
  | suspend hq => exact .suspend hq
  | input hq hd => exact .input hq hd
  | output ha => exact .output ha
  | jumpIfTrue ha hb ht => exact .jumpIfTrue ha hb ht
  | passIfTrue ha ht => exact .passIfTrue ha ht
  | jumpIfFalse ha hb ht => exact .jumpIfFalse ha hb ht
  | passIfFalse ha ht => exact .passIfFalse ha ht
  | adjustRelativeBase ha hv => exact .adjustRelativeBase ha hv
  | halt => exact .halt

/-- The digits are in no fault but the word of an immediate write parameter. -/
theorem writeTrap_withHigh {i : Instr} {s : State} {p : Param} {e : Trap} (he : writeTrap s i p = some e) (h : Nat) :
    writeTrap s (i.withHigh h) p = some e ∨
      (e = ⟨.invalidWriteTarget, i.wordNat⟩ ∧
        writeTrap s (i.withHigh h) p = some ⟨.invalidWriteTarget, (i.withHigh h).wordNat⟩) := by
  unfold writeTrap at he ⊢
  split at he
  · cases he
    exact .inr ⟨rfl, rfl⟩
  · exact .inl he

/-- An instruction with other unexamined digits meets the same tests. -/
theorem effectTrap_withHigh {i : Instr} {s : State} {e : Trap} (he : effectTrap i s = some e) (h : Nat) :
    effectTrap (i.withHigh h) s = some e ∨
      (e = ⟨.invalidWriteTarget, i.wordNat⟩ ∧
        effectTrap (i.withHigh h) s = some ⟨.invalidWriteTarget, (i.withHigh h).wordNat⟩) := by
  have hq : ∀ p h, i = .input p h → s.qin ≠ [] := by
    rintro p h' rfl hq
    simp [effectTrap_input_of_nil hq] at he
  have hq' : ∀ p h', i.withHigh h = .input p h' → s.qin ≠ [] := by
    intro p h' hi
    cases i <;> cases hi
    exact hq _ _ rfl
  rw [effectTrap_eq hq] at he
  rw [effectTrap_eq hq', firstRead_withHigh, secondRead_withHigh, writeParam_withHigh, overflowTrap_withHigh]
  cases hr : ((firstRead i).bind (readTrap s)).or ((secondRead s i).bind (readTrap s)) with
  | some t => exact .inl (by rwa [hr] at he)
  | none =>
    rw [hr, Option.none_or] at he
    cases hw : writeParam i with
    | none => exact .inl (by rwa [hw] at he)
    | some p =>
      rw [hw, Option.bind_some] at he
      cases ht : writeTrap s i p with
      | some t =>
        obtain rfl : t = e := by simpa [ht] using he
        rcases writeTrap_withHigh ht h with h' | ⟨h', h''⟩
        · simp [h']
        · simp [h', h'']
      | none =>
        have ht' : writeTrap s (i.withHigh h) p = none := writeTrap_eq_none_iff.mpr (writeTrap_eq_none_iff.mp ht)
        refine .inl ?_
        simpa [ht, ht'] using he

/-- Settles O5: the decoder keeps the digits apart in `high`, and no test and no effect but the recorded word sees
them. -/
theorem unexaminedDigitsHaveNoEffect : Obligations.UnexaminedDigitsHaveNoEffect := by
  refine ⟨fun w w' n cells rest i hw hn hm hd => decode_withHigh hw hn hm hd, fun i h s t hx => ?_⟩
  rcases exec_next_trap_or_effect hx with ⟨e, he, rfl⟩ | ⟨-, he⟩
  · rcases effectTrap_withHigh he h with h' | ⟨rfl, h'⟩
    · exact .inl (exec_of_effectTrap h')
    · exact .inr ⟨rfl, exec_of_effectTrap h'⟩
  · exact .inl (he.withHigh h).exec_eq

end Sys2Proof.Machine
end

section
/-! SUPPORT. The fetch at `IP`, the step, and the machine invariant. -/

namespace Sys2Proof.Machine

/-! ### The cells at `IP` -/

/-- The cells that a fetch finds from `a` on are the first of the window. -/
theorem fetchCells_append {m : Memory} {ws : List Word} {a : Int} (n : Nat)
    (h : ∀ (k : Nat) (w : Word), ws[k]? = some w → fetch m (a + k) = .ok w) :
    fetchCells m (ws.length + n) a = ws ++ fetchCells m n (a + ws.length) := by
  induction ws generalizing a with
  | nil => simp
  | cons w ws ih =>
    have h0 : fetch m a = .ok w := by simpa using h 0 w rfl
    have ht := ih (a := a + 1) fun k v hk => by
      have := h (k + 1) v (by simpa using hk)
      rwa [Nat.cast_add, Nat.cast_one, add_comm (k : Int), ← add_assoc] at this
    rw [List.length_cons, Nat.add_right_comm, fetchCells, h0, ht, List.cons_append, Nat.cast_add, Nat.cast_one,
      add_comm (ws.length : Int), ← add_assoc]

/-- The cells of a window are inside Memory. -/
theorem window_inside {m : Memory} {n : Nat} {a : Int} {k : Nat} (hk : k < (fetchCells m n a).length) :
    0 ≤ a ∧ a + k < m.len := by
  induction n generalizing a k with
  | zero => simp [fetchCells] at hk
  | succ n ih =>
    rw [fetchCells] at hk
    cases hf : fetch m a with
    | error e => simp [hf] at hk
    | ok w =>
      obtain ⟨h0, h1, -⟩ := fetch_ok_iff.mp hf
      cases k with
      | zero => exact ⟨h0, by simpa using h1⟩
      | succ k =>
        have := (ih (a := a + 1) (k := k) (by simpa [hf] using hk)).2
        push_cast
        exact ⟨h0, by omega⟩

/-- A window ends at the first cell outside Memory. -/
theorem length_fetchCells {m : Memory} {n : Nat} {a : Int} {k : Nat} (h0 : 0 ≤ a) (hk : k ≤ n)
    (hin : ∀ j : Nat, j < k → a + j < m.len) (hout : (m.len : Int) ≤ a + k) : (fetchCells m n a).length = k := by
  induction n generalizing a k with
  | zero =>
    obtain rfl : k = 0 := by omega
    rfl
  | succ n ih =>
    rw [fetchCells]
    cases k with
    | zero => simp [fetch_error_iff.mpr ⟨.inr (by simpa using hout), rfl⟩]
    | succ k =>
      have h1 : a < m.len := by simpa using hin 0 (by omega)
      rw [fetch_ok_iff.mpr ⟨h0, h1, rfl⟩, List.length_cons, Nat.add_right_cancel_iff]
      push_cast at hout
      refine ih (by omega) (by omega) (fun j hj => ?_) (by omega)
      have := hin (j + 1) (by omega)
      push_cast at this
      omega

/-- Outside Memory the window is empty. -/
theorem fetchWindow_of_outside {s : State} (h : s.ip.toInt < 0 ∨ (s.mem.len : Int) ≤ s.ip.toInt) :
    fetchWindow s = [] := by
  rw [fetchWindow, fetchCells, fetch_error_iff.mpr ⟨h, rfl⟩]

/-- Inside Memory the window is the word at `IP` and up to three cells after it. -/
theorem fetchWindow_of_fetch {s : State} {w : Word} (h : fetch s.mem s.ip.toInt = .ok w) :
    fetchWindow s = w :: fetchCells s.mem 3 (s.ip.toInt + 1) := by
  rw [fetchWindow, fetchCells, h]

/-- The instruction at `IP` is one that the window decodes to. -/
theorem fetchDecode_ok_iff {s : State} {i : Instr} :
    fetchDecode s = .ok i ↔ ∃ rest, decode (fetchWindow s) = .ok (i, rest) := by
  rw [fetchDecode]
  rcases decode (fetchWindow s) with e | ⟨j, rest⟩ <;> simp

/-- A window that does not decode gives its failure's fault. -/
theorem fetchDecode_of_error {s : State} {e : DecodeError} (h : decode (fetchWindow s) = .error e) :
    fetchDecode s = .error (decodeTrap s.ip e) := by
  rw [fetchDecode, h]

/-- Every cell of the instruction at `IP` is inside Memory (spec/10_state.md R24). -/
theorem length_le_of_fetchDecode {s : State} {i : Instr} (h : fetchDecode s = .ok i) :
    0 ≤ s.ip.toInt ∧ s.ip.toInt + i.length ≤ s.mem.len := by
  obtain ⟨rest, hd⟩ := fetchDecode_ok_iff.mp h
  have hcells := (encodeInvertsDecode _ _ _ hd).2
  have hlen : i.params.length < (fetchWindow s).length := by
    rw [← hcells, List.length_append, encode, List.length_cons, List.length_map]
    omega
  obtain ⟨h0, h1⟩ := window_inside hlen
  rw [Instr.length]
  exact ⟨h0, by omega⟩

/-! ### One step -/

/-- The step of an instance whose next instruction decodes is that instruction's effect from `READY`. -/
theorem step_of_fetchDecode {s : State} {i : Instr} (hr : Runnable s) (h : fetchDecode s = .ok i) :
    step s = exec i (s.setRs .ready) := by
  rw [step_of_runnable hr, stepReady_ok (by simpa using h)]

/-- The step of an instance whose next instruction does not decode is the fault. -/
theorem step_of_fetchDecode_error {s : State} {e : Trap} (hr : Runnable s) (h : fetchDecode s = .error e) :
    step s = .next (s.raise e) := by
  rw [step_of_runnable hr, stepReady_error (by simpa using h), State.setRs_raise]

/-- No test sees the run state. -/
@[simp] theorem effectTrap_setRs (i : Instr) (s : State) (r : RunState) :
    effectTrap i (s.setRs r) = effectTrap i s := by
  cases i <;> rfl

/-- Every instruction answers a next state. -/
theorem exists_exec_next (i : Instr) (s : State) : ∃ t, exec i s = .next t := by
  cases h : effectTrap i s with
  | some e => exact ⟨_, exec_of_effectTrap h⟩
  | none => exact (exists_effect h).imp fun _ he => he.exec_eq

/-- What a step can answer: nothing on `HALTED`, a fault, or the effect of the instruction at `IP` from `READY`. -/
theorem step_cases {s t : State} (h : step s = .next t) :
    (s.rs = .halted ∧ t = s) ∨ (Runnable s ∧ ∃ e, t = s.raise e) ∨
      (Runnable s ∧ ∃ i, fetchDecode s = .ok i ∧ Effect (s.setRs .ready) i t) := by
  rcases step_next_cases h with hh | ⟨hr, ⟨e, -, rfl⟩ | ⟨i, hd, hx⟩⟩
  · exact .inl hh
  · exact .inr (.inl ⟨hr, e, rfl⟩)
  · rcases exec_next_cases hx with ⟨e, rfl⟩ | he
    · exact .inr (.inl ⟨hr, e, State.setRs_raise ..⟩)
    · exact .inr (.inr ⟨hr, i, hd, he⟩)

/-- Settles O38: the step of a runnable instance whose window decodes. -/
theorem stepRunsTheDecodedInstruction : Obligations.StepRunsTheDecodedInstruction := fun _ _ rest hr hd =>
  step_of_fetchDecode hr (fetchDecode_ok_iff.mpr ⟨rest, hd⟩)

/-- Settles O39: the window starts with the instruction's cells, and decoding inverts encoding. -/
theorem anEncodedInstructionAtIpRuns : Obligations.AnEncodedInstructionAtIpRuns := by
  intro s i hr hw hcells
  have hlen : (encode i).length ≤ 4 := by cases i <;> simp [encode, Instr.params]
  have hwin := fetchCells_append (4 - (encode i).length) hcells
  rw [Nat.add_sub_of_le hlen] at hwin
  have hdec := decodeInvertsEncode i (fetchCells s.mem (4 - (encode i).length) (s.ip.toInt + (encode i).length)) hw
  rw [← hwin] at hdec
  exact step_of_fetchDecode hr (fetchDecode_ok_iff.mpr ⟨_, hdec⟩)

/-- Settles O40: each failure of the decoder on the window, as the fault it raises. -/
theorem decodeFaultsComeInOrder : Obligations.DecodeFaultsComeInOrder := by
  intro s hr
  have hfault : ∀ {e}, decode (fetchWindow s) = .error e → step s = .next (s.raise (decodeTrap s.ip e)) :=
    fun he => step_of_fetchDecode_error hr (fetchDecode_of_error he)
  refine ⟨fun hout => hfault (e := .noWord) (by rw [fetchWindow_of_outside hout, decode]), fun w hw => ?_⟩
  rw [fetchWindow_of_fetch hw] at hfault
  refine ⟨fun hop => hfault (decode_of_no_opcode hop), fun n hn0 hn => ?_⟩
  obtain ⟨-, hparts⟩ := decodePartitionsTheWords
  obtain ⟨-, -, hn'⟩ := hparts w (fetchCells s.mem 3 (s.ip.toInt + 1))
  obtain ⟨hmode, hshort, -⟩ := hn' n hn0 hn
  refine ⟨fun hbad => hfault (hmode hbad), fun k hdig hk hin hout => ?_⟩
  have hn3 : n ≤ 3 := by
    unfold paramCount at hn
    split at hn <;> cases hn <;> decide
  obtain ⟨h0, -, -⟩ := fetch_ok_iff.mp hw
  have hlen := length_fetchCells (n := 3) (by omega) (by omega) hin hout
  have hs := hfault (hshort hdig (by omega))
  rwa [hlen] at hs

/-- Settles O30: from `READY` the first fault is raised, and an effect is none. -/
theorem theFirstFaultMetIsRaised : Obligations.TheFirstFaultMetIsRaised := by
  intro s i hr hd
  rw [step_of_fetchDecode hr hd]
  refine ⟨fun e he => ?_, fun he => ?_⟩
  · rw [exec_of_effectTrap (by simpa using he), State.setRs_raise]
  · obtain ⟨t, ht⟩ := exists_effect (i := i) (s := s.setRs .ready) (by simpa using he)
    exact ⟨t, ht.exec_eq, ht.rs_ne_faulted (by simp)⟩

/-- Settles O34: a step that ends `FAULTED` is neither that of a halted instance nor an effect. -/
theorem faultsArePrecise : Obligations.FaultsArePrecise := by
  intro s t h ht
  rcases step_cases h with ⟨hs, rfl⟩ | ⟨-, e, rfl⟩ | ⟨-, i, -, he⟩
  · simp [hs] at ht
  · exact ⟨e.cause, e.info, rfl⟩
  · exact absurd ht (he.rs_ne_faulted (by simp))

/-- Settles O43: in each run state, and no instruction is refused. -/
theorem stepAlwaysAnswersUnlessFaulted : Obligations.StepAlwaysAnswersUnlessFaulted := by
  intro s
  have hnext : s.rs ≠ .faulted → ∃ t, step s = .next t := by
    intro hs
    by_cases hr : Runnable s
    · cases hd : fetchDecode s with
      | error e => exact ⟨_, step_of_fetchDecode_error hr hd⟩
      | ok i =>
        rw [step_of_fetchDecode hr hd]
        exact exists_exec_next i _
    · have hh : s.rs = .halted := by
        unfold Runnable at hr
        cases h : s.rs <;> simp_all
      exact ⟨s, by simp only [step, hh]⟩
  refine ⟨hnext, fun r h => ?_⟩
  by_cases hs : s.rs = .faulted
  · simp [step, hs] at h
  · obtain ⟨t, ht⟩ := hnext hs
    simp [ht] at h

/-! ### `IP` -/

/-- An advance inside the 64-bit range is exact. -/
theorem toInt_add_ofNat {w : Word} {n : Nat} (h0 : 0 ≤ w.toInt) (h : w.toInt + n ≤ 2 ^ 63 - 1) :
    (w + BitVec.ofNat 64 n).toInt = w.toInt + n := by
  have hw := toInt_nonneg_iff.mp h0
  have hn : w.toInt = w.toNat := BitVec.toInt_eq_toNat_of_lt (by omega)
  have hsum : (w + BitVec.ofNat 64 n).toNat = w.toNat + n := by
    rw [BitVec.toNat_add, BitVec.toNat_ofNat]
    omega
  rw [BitVec.toInt_eq_toNat_of_lt (by omega), hsum, hn]
  push_cast
  rfl

/-- The table does not see the run state. -/
theorem ipAfter_setRs (i : Instr) (s : State) (r : RunState) : ipAfter i (s.setRs r) = ipAfter i s := by
  cases i <;> rfl

/-- `IP` after an effect, when the advance over the instruction's own cells does not wrap. -/
theorem Effect.toInt_ip {i : Instr} {s t : State} (he : Effect s i t)
    (hadv : (s.ip + BitVec.ofNat 64 i.length).toInt = s.ip.toInt + i.length) : t.ip.toInt = ipAfter i s := by
  cases he with
  | add | multiply | lessThan | equals | output | adjustRelativeBase => exact hadv
  | suspend hq => simp [ipAfter, hq]
  | input hq => exact hadv.trans (if_neg (by simp [hq])).symm
  | jumpIfTrue ha hb ht | jumpIfFalse ha hb ht => simp [ipAfter, ht]
  | passIfTrue ha ht => exact hadv.trans (if_neg (not_not.mpr ht)).symm
  | passIfFalse ha ht => exact hadv.trans (if_neg ht).symm
  | halt => rfl

/-- Settles O41: the cells of the instruction are inside Memory, so `IP` plus its length is in range. -/
theorem instructionPointerFollowsTheTable : Obligations.InstructionPointerFollowsTheTable := by
  intro s t hs hr h
  rcases step_cases h with ⟨hh, -⟩ | ⟨-, e, rfl⟩ | ⟨-, i, hd, he⟩
  · simp [Runnable, hh] at hr
  · exact ⟨fun _ => rfl, fun _ _ hn => absurd rfl hn⟩
  · refine ⟨fun hf => absurd hf (he.rs_ne_faulted (by simp)), fun j hj _ => ?_⟩
    obtain rfl : i = j := Except.ok.inj (hd.symm.trans hj)
    obtain ⟨-, ⟨-, hmax⟩, hlen, -⟩ := hs
    obtain ⟨h0, h1⟩ := length_le_of_fetchDecode hd
    have hmax' : s.params.memMax ≤ 2 ^ 63 - 1 := hmax
    have hip := he.toInt_ip (toInt_add_ofNat h0 (by simp only [State.setRs_ip]; omega))
    rwa [ipAfter_setRs] at hip

/-- Settles O42: the jump only loads `IP`; the fetch there is outside Memory, or reads the word. -/
theorem takenJumpIsCheckedAtTheNextFetch : Obligations.TakenJumpIsCheckedAtTheNextFetch := by
  intro a b high i s hr ha hb hi
  have he : Effect s i ((s.setMem (touched s [a, b])).setIp (operandValue s b)) := by
    rcases hi with ⟨rfl, ht⟩ | ⟨rfl, ht⟩
    · exact .jumpIfTrue ha hb ht
    · exact .jumpIfFalse ha hb ht
  refine ⟨_, he.exec_eq, rfl, hr, fun hout => ?_, ?_⟩
  · have hd := fetchDecode_of_error (e := .noWord) (by rw [fetchWindow_of_outside hout, decode])
    exact step_of_fetchDecode_error (s := (s.setMem (touched s [a, b])).setIp (operandValue s b)) (.inl hr) hd
  · exact fun h0 h1 => ⟨_, fetchWindow_of_fetch (fetch_ok_iff.mpr ⟨h0, h1, rfl⟩)⟩

/-! ### Input on an empty queue, and halt -/

/-- A suspension changes nothing but `RS`, and comes from an input that waits. -/
theorem step_suspended {s t : State} (h : step s = .next t) (ht : t.rs = .suspended) :
    Runnable s ∧ waiting s = true ∧ t = s.suspend := by
  rcases step_cases h with ⟨hs, rfl⟩ | ⟨-, e, rfl⟩ | ⟨hr, i, hd, he⟩
  · simp [hs] at ht
  · simp at ht
  · rcases he.rs_cases with h' | ⟨_, -, rfl⟩ | ⟨p, high, rfl, hq, rfl⟩
    · simp [h'] at ht
    · simp at ht
    · rw [State.setRs_qin] at hq
      exact ⟨hr, by simp [waiting, atInput, hd, hq], rfl⟩

/-- The step of an instance that waits at an input suspends. -/
theorem step_of_waiting {s : State} (hr : Runnable s) (hw : waiting s = true) : step s = .next s.suspend := by
  simp only [waiting, atInput, Bool.and_eq_true, List.isEmpty_iff] at hw
  obtain ⟨hi, hq⟩ := hw
  split at hi
  · rw [step_of_fetchDecode hr ‹_›, (Effect.suspend (by simpa using hq)).exec_eq, State.setRs_suspend]
  · cases hi

/-- A run of an instance that waits at an input suspends at once. -/
theorem run_of_waiting {s : State} (hr : Runnable s) (hw : waiting s = true) (cancel : List Bool) :
    run (false :: cancel) s = (.suspended, s.suspend) := by
  rw [run_of_runnable hr, runLoop, step_of_waiting (s := s.setRs .ready) (.inl rfl) hw]
  rfl

/-- The last clause of R121: no host operation but a push, a replacement by values, and reset, lifts the suspension. -/
theorem waiting_hostOp {s : State} (hw : waiting s = true) {op : HostOp} (hpush : ∀ v, op ≠ .push v)
    (hset : ∀ v q, op ≠ .setInboundQueue (v :: q)) (hnew : ∀ img n, op ≠ .new img n) :
    Runnable (hostOp op s.suspend).2 ∧ waiting (hostOp op s.suspend).2 = true := by
  cases op with
  | new img n => exact absurd rfl (hnew img n)
  | push v => exact absurd rfl (hpush v)
  | setInboundQueue q =>
    cases q with
    | cons v q => exact absurd rfl (hset v q)
    | nil =>
      simp only [waiting, Bool.and_eq_true] at hw ⊢
      exact ⟨.inr rfl, hw.1, rfl⟩
  | setObserver c => exact ⟨.inr rfl, hw⟩
  | drainOutbound => exact ⟨.inr rfl, hw⟩
  | memorySnapshot => exact ⟨.inr rfl, hw⟩
  | run cancel =>
    match cancel with
    | [] => exact ⟨.inl rfl, hw⟩
    | true :: _ => exact ⟨.inl rfl, hw⟩
    | false :: cancel =>
      simp only [hostOp, run_of_waiting (s := s.suspend) (.inr rfl) hw]
      exact ⟨.inr rfl, hw⟩

/-- Settles O24: the effect of input on an empty queue, and what the next run finds after each host operation. -/
theorem inputOnAnEmptyQueueSuspends : Obligations.InputOnAnEmptyQueueSuspends := by
  refine ⟨fun dst high s hq => ⟨(Effect.suspend hq).exec_eq, fun hr hd cancel => ?_⟩,
    fun s t hr _ hd => step_of_fetchDecode_error hr hd⟩
  have hw : waiting s = true := by simp [waiting, atInput, hd, hq]
  refine ⟨run_of_waiting hr hw cancel, run_of_waiting (s := s.suspend) (.inr rfl) hw cancel, fun v => ?_, fun v q => ?_,
    fun op hpush hset hnew => ?_⟩
  · refine (step_of_fetchDecode (s := pushInbound v s.suspend) (.inr rfl) hd).trans ?_
    simp only [pushInbound, State.pushIn, State.setRs, State.suspend, hq, List.nil_append]
  · exact step_of_fetchDecode (s := setInboundQueue (v :: q) s.suspend) (.inr rfl) hd
  · obtain ⟨hr', hw'⟩ := waiting_hostOp hw hpush hset hnew
    exact congrArg Prod.fst (run_of_waiting hr' hw' cancel)

/-- Settles O29: the effect of halt ends the run, and its two digits are all that the decoder looks at. -/
theorem haltOnlySetsTheRunState : Obligations.HaltOnlySetsTheRunState := by
  refine ⟨fun high s => ⟨Effect.halt.exec_eq, fun hr hd cancel => ?_⟩, fun w cells hw h99 => ?_⟩
  · rw [run_of_runnable hr, runLoop, step_of_fetchDecode (.inl rfl) (by simpa using hd), Effect.halt.exec_eq]
    rfl
  · exact ⟨w.toNat / 100, by simp [decode, Int.not_lt.mpr hw, h99]⟩

/-! ### The invariant -/

/-- Reading readable parameters keeps Memory within `MEM_MAX`. -/
theorem len_touched_le {s : State} (h : s.mem.len ≤ s.params.memMax) {ps : List Param} (hps : ∀ p ∈ ps, Readable s p) :
    (touched s ps).len ≤ s.params.memMax := by
  suffices H : ∀ n, n ≤ s.params.memMax → ps.foldl (fun n p => max n (cellEnd s p)) n ≤ s.params.memMax from H _ h
  induction ps with
  | nil => exact fun _ hn => hn
  | cons p ps ih =>
    exact fun n hn => ih (fun q hq => hps q (List.mem_cons_of_mem _ hq)) _
      (max_le hn (cellEnd_le_of_readable (hps p List.mem_cons_self)))

/-- An effect keeps Memory in its canonical form and within `MEM_MAX`. -/
theorem Effect.mem_inv {i : Instr} {s t : State} (he : Effect s i t) (hm : s.mem.wf)
    (hl : s.mem.len ≤ s.params.memMax) : t.mem.wf ∧ t.mem.len ≤ t.params.memMax := by
  obtain ⟨ps, hps, h | ⟨dst, d, v, -, ⟨-, hd⟩, h⟩⟩ := he.mem_cases <;> rw [h, he.params_eq]
  · exact ⟨wf_touched hm ps, len_touched_le hl hps⟩
  · exact ⟨Memory.wf_write (wf_touched hm ps) d v, max_le (len_touched_le hl hps) hd⟩

/-- An instance that can take a step has no fault record. -/
theorem State.Inv.fc_eq_none {s : State} (hs : s.Inv) (h : s.rs ≠ .faulted) : s.fc = none := by
  obtain ⟨-, -, -, hfc, -, -⟩ := hs
  rwa [Ne, hfc, Option.not_isSome_iff_eq_none] at h

/-- A fault keeps the invariant. -/
theorem State.Inv.raise {s : State} (hs : s.Inv) (e : Trap) : (s.raise e).Inv := by
  obtain ⟨hm, hp, hl, -, -, -⟩ := hs
  exact ⟨hm, hp, hl, by simp, by simp, by simp⟩

/-- A run makes the instance `READY` first, which keeps the invariant. -/
theorem State.Inv.setRs_ready {s : State} (hs : s.Inv) (hr : Runnable s) : (s.setRs .ready).Inv := by
  have hfc : s.fc = none := hs.fc_eq_none (by rcases hr with h | h <;> simp [h])
  obtain ⟨hm, hp, hl, -, -, -⟩ := hs
  exact ⟨hm, hp, hl, by simp [hfc], by simp [hfc], by simp⟩

/-- The effect of the instruction at `IP` keeps the invariant. -/
theorem Effect.inv {i : Instr} {s t : State} (he : Effect s i t) (hs : s.Inv) (hr : s.rs = .ready)
    (hd : fetchDecode s = .ok i) : t.Inv := by
  have hfc : t.fc = none := by rw [he.fc_eq, hs.fc_eq_none (by simp [hr])]
  have hrs := he.rs_ne_faulted (by simp [hr])
  obtain ⟨hm, hp, hl, -, -, -⟩ := hs
  obtain ⟨hm', hl'⟩ := he.mem_inv hm hl
  refine ⟨hm', by rwa [he.params_eq], hl', by simp [hfc, hrs], by simp [hfc], fun ht => ?_⟩
  rcases he.rs_cases with h | ⟨_, -, rfl⟩ | ⟨p, h, rfl, -, rfl⟩
  · simp [h, hr] at ht
  · simp at ht
  · rw [atInput_congr (s := s) (t := s.suspend) rfl rfl, atInput, hd]

/-- Settles O46: a fault keeps the invariant, and so does the effect of the decoded instruction from `READY`. -/
theorem stepKeepsTheInvariant : Obligations.StepKeepsTheInvariant := by
  intro s t hs h
  rcases step_cases h with ⟨-, rfl⟩ | ⟨-, e, rfl⟩ | ⟨hr, i, hd, he⟩
  · exact hs
  · exact hs.raise e
  · exact he.inv (hs.setRs_ready hr) rfl (by simpa using hd)

/-- Settles O45: Memory holds an image in canonical form, and everything else is empty. -/
theorem everyFreshInstanceMeetsTheInvariant : Obligations.EveryFreshInstanceMeetsTheInvariant := by
  intro p img n s hp h
  unfold construct at h
  split at h <;> cases h
  exact ⟨wf_imageCells img _ (le_max_left _ _), hp, not_lt.mp ‹_›, by simp [State.reset], by simp [State.reset],
    by simp [State.reset]⟩

/-- Settles O44: the reset state is a fresh instance. -/
theorem resetMeetsTheInvariant : Obligations.ResetMeetsTheInvariant :=
  everyFreshInstanceMeetsTheInvariant Params.default [] none State.reset (by decide) rfl

/-- The loop of a run keeps what every step keeps. -/
theorem runLoop_induction {P : State → Prop} (hstep : ∀ s t, P s → step s = .next t → P t) (cancel : List Bool)
    {s : State} (hs : P s) : P (runLoop cancel s).2 := by
  induction cancel generalizing s with
  | nil => exact hs
  | cons c cancel ih =>
    cases c with
    | true => exact hs
    | false =>
      rw [runLoop]
      split
      · exact hs
      · exact hs
      · have ht := hstep s _ hs ‹_›
        split
        · exact ht
        · exact ih ht

/-- A run keeps the invariant. -/
theorem State.Inv.run {s : State} (hs : s.Inv) (cancel : List Bool) : (run cancel s).2.Inv := by
  by_cases hr : Runnable s
  · rw [run_of_runnable hr]
    exact runLoop_induction stepKeepsTheInvariant cancel (hs.setRs_ready hr)
  · unfold Machine.run
    split
    · exact hs
    · exact hs
    · exact absurd (.inl ‹_›) hr
    · exact absurd (.inr ‹_›) hr

/-- Settles O47: each operation but `run` and reset changes nothing that the invariant speaks of. -/
theorem hostOperationsKeepTheInvariant : Obligations.HostOperationsKeepTheInvariant := by
  intro op s hs
  cases op with
  | new img n =>
    rw [hostOp]
    split
    · obtain ⟨-, hp, -⟩ := hs
      exact everyFreshInstanceMeetsTheInvariant _ _ _ _ hp ‹_›
    · exact hs
  | run cancel => exact hs.run cancel
  | setInboundQueue | push | setObserver | drainOutbound | memorySnapshot => exact hs

/-! ### The run loop -/

/-- A run goes on exactly after a step that leaves the instance `READY`. -/
theorem stopOf_eq_none_iff {t : State} : stopOf t = none ↔ t.rs = .ready := by
  unfold stopOf
  cases t.rs <;> simp

/-- The run states that the outcomes of a run leave (spec/49_run_and_host.md R165, R175). -/
def OutcomeFits (t : State) : RunOutcome → Prop
  | .halted => t.rs = .halted
  | .suspended => t.rs = .suspended ∧ t.qin = []
  | .fault c => t.rs = .faulted ∧ t.fc = c
  | .cancelled => t.rs = .ready
  | .outOfSteps => t.rs = .ready
  | .refused _ => False

/-- A step that ends the run leaves the run state of its outcome. -/
theorem outcomeFits_of_stopOf {s t : State} {r : RunOutcome} (h : step s = .next t) (hr : stopOf t = some r) :
    OutcomeFits t r := by
  unfold stopOf at hr
  split at hr <;> cases hr
  · obtain ⟨-, hw, rfl⟩ := step_suspended h ‹_›
    simp only [waiting, Bool.and_eq_true, List.isEmpty_iff] at hw
    exact ⟨rfl, hw.2⟩
  · assumption
  · exact ⟨‹_›, rfl⟩

/-- From `READY` every outcome of the loop fits. -/
theorem outcomeFits_runLoop (cancel : List Bool) {s : State} (hs : s.rs = .ready) :
    OutcomeFits (runLoop cancel s).2 (runLoop cancel s).1 := by
  induction cancel generalizing s with
  | nil => exact hs
  | cons c cancel ih =>
    cases c with
    | true => exact hs
    | false =>
      obtain ⟨t, ht⟩ := (stepAlwaysAnswersUnlessFaulted s).1 (by simp [hs])
      simp only [runLoop, ht]
      cases hr : stopOf t with
      | some r => exact outcomeFits_of_stopOf ht hr
      | none => exact ih (stopOf_eq_none_iff.mp hr)

/-- Settles O50: an ended instance is reported as it is, and the loop starts from `READY`. -/
theorem runOutcomeMatchesTheRunState : Obligations.RunOutcomeMatchesTheRunState := by
  intro cancel s t r h
  have hfits : OutcomeFits (run cancel s).2 (run cancel s).1 := by
    unfold run
    split
    · assumption
    · exact ⟨‹_›, rfl⟩
    · exact outcomeFits_runLoop cancel rfl
    · exact outcomeFits_runLoop cancel rfl
  rw [h] at hfits
  cases r <;> exact hfits

/-- A loop that used up its samples left the instance `READY`, and goes on with further samples from there. -/
theorem runLoop_append {cs : List Bool} {s t : State} (hs : s.rs = .ready) (h : runLoop cs s = (.outOfSteps, t)) :
    t.rs = .ready ∧ ∀ ds, runLoop (cs ++ ds) s = runLoop ds t := by
  induction cs generalizing s with
  | nil =>
    cases h
    exact ⟨hs, fun _ => rfl⟩
  | cons c cs ih =>
    cases c with
    | true => cases h
    | false =>
      obtain ⟨u, hu⟩ := (stepAlwaysAnswersUnlessFaulted s).1 (by simp [hs])
      simp only [List.cons_append, runLoop, hu] at h ⊢
      cases hr : stopOf u with
      | some r =>
        rw [hr] at h
        cases h
        unfold stopOf at hr
        split at hr <;> cases hr
      | none =>
        rw [hr] at h
        exact ih (stopOf_eq_none_iff.mp hr) h

/-- Settles O51: the loop over the samples goes on from the state that the first of them left. -/
theorem cancelledRunResumesWhereItStopped : Obligations.CancelledRunResumesWhereItStopped := by
  intro cs ds s t h
  have hr : Runnable s := by
    unfold run at h
    split at h
    · cases h
    · cases h
    · exact .inl ‹_›
    · exact .inr ‹_›
  rw [run_of_runnable hr] at h
  obtain ⟨ht, hgo⟩ := runLoop_append rfl h
  refine ⟨ht, ?_, ?_⟩
  · rw [run_of_runnable hr, hgo, runLoop]
  · rw [run_of_runnable hr, hgo, run_of_runnable (.inl ht), State.setRs_self _ _ ht]

/-! ### Final run states -/

/-- Settles O13: step and run look at `RS` first, and no other operation writes it. -/
theorem haltedIsFinal : Obligations.HaltedIsFinal := by
  intro s hs
  have hrun : ∀ cancel, run cancel s = (.halted, s) := fun cancel => by simp only [run, hs]
  refine ⟨by simp only [step, hs], hrun, fun op hop => ?_⟩
  cases op with
  | new img n => exact absurd rfl (hop img n)
  | run cancel => simp only [hostOp, hrun, hs]
  | setInboundQueue | push | setObserver | drainOutbound | memorySnapshot => exact hs

/-- Settles O14: step and run look at `RS` first, and no other operation writes it or `FC`. -/
theorem faultedIsFinal : Obligations.FaultedIsFinal := by
  intro s hs
  have hrun : ∀ cancel, run cancel s = (.fault s.fc, s) := fun cancel => by simp only [run, hs]
  refine ⟨by simp only [step, hs], hrun, fun op hop => ?_⟩
  cases op with
  | new img n => exact absurd rfl (hop img n)
  | run cancel => simp only [hostOp, hrun, hs, and_self]
  | setInboundQueue | push | setObserver | drainOutbound | memorySnapshot => exact ⟨hs, rfl⟩

end Sys2Proof.Machine
end

section
/-! SUPPORT. Reset, and the host operations that only read or replace a queue. -/

namespace Sys2Proof.Machine

/-! ### The memory of a fresh instance -/

/-- The cells of an image hold its values, and every cell after them 0. -/
theorem lookupCell_imageCells (a k : Nat) (ws : List Word) : lookupCell (imageCells a ws) (a + k) = ws.getD k 0#64 := by
  induction ws generalizing a k with
  | nil => simp [imageCells, lookupCell]
  | cons w ws ih =>
    cases k with
    | zero =>
      by_cases hw : w = 0#64
      · subst hw
        simp only [imageCells, if_true]
        exact lookupCell_eq_zero _ _ fun c hc => Nat.ne_of_gt (mem_imageCells hc).1
      · simp [imageCells, hw, lookupCell]
    | succ k =>
      have ht := ih (a + 1) k
      rw [Nat.add_right_comm, Nat.add_assoc] at ht
      by_cases hw : w = 0#64
      · simpa [imageCells, hw] using ht
      · simpa [imageCells, hw, lookupCell] using ht

/-- The state that reset makes of an image (spec/70_reset_and_hazards.md R240). -/
def fresh (p : Params) (img : List Word) (n : Nat) : State :=
  { State.reset with mem := { cells := imageCells 0 img, len := n }, params := p }

/-- Reset answers the fresh state when the size fits. -/
theorem construct_of_fits {p : Params} {img : List Word} {n : Option Nat} (h : resetSize img n ≤ p.memMax) :
    construct p img n = .ok (fresh p img (resetSize img n)) :=
  if_neg (Nat.not_lt.mpr h)

/-- What reset answers is the fresh state. -/
theorem eq_fresh_of_construct {p : Params} {img : List Word} {n : Option Nat} {s : State}
    (h : construct p img n = .ok s) : s = fresh p img (resetSize img n) := by
  by_cases hle : resetSize img n ≤ p.memMax
  · rw [construct_of_fits hle] at h
    exact (Except.ok.inj h).symm
  · rw [construct, if_pos (Nat.not_le.mp hle)] at h
    cases h

theorem get_fresh (p : Params) (img : List Word) (n k : Nat) : (fresh p img n).mem.get k = img.getD k 0#64 := by
  have := lookupCell_imageCells 0 k img
  rwa [Nat.zero_add] at this

/-- Settles O6: reset answers the fresh state, field by field, or its refusal. -/
theorem resetSetsEveryPieceOfState : Obligations.ResetSetsEveryPieceOfState := by
  intro p img n
  refine ⟨fun h => if_pos h, fun h => ⟨_, construct_of_fits h, rfl, fun k v hk => ?_, fun k hk => ?_,
    rfl, rfl, rfl, rfl, rfl, rfl, rfl, rfl, rfl⟩⟩
  · rw [get_fresh, List.getD_eq_getElem?_getD, hk, Option.getD_some]
  · rw [get_fresh, List.getD_eq_default _ _ hk]

/-- Settles O8: position by position, the image and then zeros, up to the size that reset took. -/
theorem snapshotAfterResetIsTheImage : Obligations.SnapshotAfterResetIsTheImage := by
  intro p img n s h
  obtain rfl := eq_fresh_of_construct h
  have hlen : (fresh p img (resetSize img n)).mem.len = img.length + (n.getD 0 - img.length) := by
    show max img.length (n.getD 0) = _
    omega
  refine List.ext_getElem (by simp [hlen]) fun k hk _ => ?_
  rw [length_memorySnapshot] at hk
  rw [List.getElem_eq_iff, getElem?_memorySnapshot hk, get_fresh, List.getD_eq_getElem?_getD]
  congr 1
  rcases Nat.lt_or_ge k img.length with hi | hi
  · rw [List.getElem_append_left hi, List.getElem?_eq_getElem hi, Option.getD_some]
  · rw [List.getElem_append_right hi, List.getElem?_eq_none hi, List.getElem_replicate, Option.getD_none]

/-- Settles O7: the empty image fits, and its fresh state is the reset state. -/
theorem resetStateIsTheEmptyImage : Obligations.ResetStateIsTheEmptyImage :=
  construct_of_fits (Nat.zero_le _)

/-! ### Queues and observer -/

/-- Settles O10: by the definition of the operation. -/
theorem drainEmptiesTheOutboundQueue : Obligations.DrainEmptiesTheOutboundQueue := fun _ => rfl

/-- Settles O11: by the definition of the operation. -/
theorem pushAppendsToTheInboundQueue : Obligations.PushAppendsToTheInboundQueue := fun _ _ => rfl

/-- Settles O12: by the definitions of the operations. -/
theorem queueAndObserverAreReplaced : Obligations.QueueAndObserverAreReplaced := fun _ _ _ => ⟨rfl, rfl⟩

/-- Settles O1: each word is evaluated; a mode digit left out is 0 (spec/30_encoding.md R81). -/
theorem decodesTheWordsOfTheSpec : Obligations.DecodesTheWordsOfTheSpec := by
  unfold Obligations.DecodesTheWordsOfTheSpec
  decide

end Sys2Proof.Machine
end

section
/-! SUPPORT. What a step cannot see: the outbound side of the instance, and the values behind the head of `Qin`. -/

namespace Sys2Proof.Machine

/-! ### The outbound side (spec/10_state.md R31) -/

/-- The state with another outbound side: values before those of `Qout`, another registration, another fault record and
other notifications. -/
def withHidden (s : State) (q : List Word) (o : Option Consumer) (fc : Option FaultRecord) (ns : List Notice) : State :=
  { s with qout := q ++ s.qout, obs := o, fc := fc, notices := ns }

/-- The two states agree but for what no step reads, and `q` stands before the values of `Qout`. -/
structure AgreeButHidden (q : List Word) (t t' : State) : Prop where
  mem : t'.mem = t.mem
  ip : t'.ip = t.ip
  rb : t'.rb = t.rb
  qin : t'.qin = t.qin
  rs : t'.rs = t.rs
  qout : t'.qout = q ++ t.qout

section Hidden
variable {i : Instr} {s t : State} (q : List Word) (o : Option Consumer) (fc : Option FaultRecord) (ns : List Notice)

/-- No test reads the outbound side. -/
theorem effectTrap_withHidden : effectTrap i (withHidden s q o fc ns) = effectTrap i s := by
  cases i <;> rfl

/-- Every effect is the same from a state with another outbound side. -/
theorem Effect.withHidden (he : Effect s i t) :
    ∃ t', Effect (withHidden s q o fc ns) i t' ∧ AgreeButHidden q t t' := by
  cases he with
  | add ha hb hd hv => exact ⟨_, .add ha hb hd hv, rfl, rfl, rfl, rfl, rfl, rfl⟩
  | multiply ha hb hd hv => exact ⟨_, .multiply ha hb hd hv, rfl, rfl, rfl, rfl, rfl, rfl⟩
  | lessThan ha hb hd => exact ⟨_, .lessThan ha hb hd, rfl, rfl, rfl, rfl, rfl, rfl⟩
  | equals ha hb hd => exact ⟨_, .equals ha hb hd, rfl, rfl, rfl, rfl, rfl, rfl⟩
  | suspend hq => exact ⟨_, .suspend hq, rfl, rfl, rfl, rfl, rfl, rfl⟩
  | input hq hd => exact ⟨_, .input hq hd, rfl, rfl, rfl, rfl, rfl, rfl⟩
  | output ha => exact ⟨_, .output ha, rfl, rfl, rfl, rfl, rfl, List.append_assoc ..⟩
  | jumpIfTrue ha hb ht => exact ⟨_, .jumpIfTrue ha hb ht, rfl, rfl, rfl, rfl, rfl, rfl⟩
  | passIfTrue ha ht => exact ⟨_, .passIfTrue ha ht, rfl, rfl, rfl, rfl, rfl, rfl⟩
  | jumpIfFalse ha hb ht => exact ⟨_, .jumpIfFalse ha hb ht, rfl, rfl, rfl, rfl, rfl, rfl⟩
  | passIfFalse ha ht => exact ⟨_, .passIfFalse ha ht, rfl, rfl, rfl, rfl, rfl, rfl⟩
  | adjustRelativeBase ha hv => exact ⟨_, .adjustRelativeBase ha hv, rfl, rfl, rfl, rfl, rfl, rfl⟩
  | halt => exact ⟨_, .halt, rfl, rfl, rfl, rfl, rfl, rfl⟩

/-- A fault is the same, its record included. -/
theorem agreeButHidden_raise (s : State) (e : Trap) :
    AgreeButHidden q (s.raise e) ((withHidden s q o fc ns).raise e) :=
  ⟨rfl, rfl, rfl, rfl, rfl, rfl⟩

/-- An instruction takes the same course, and a fault leaves the same record. -/
theorem exec_withHidden (hs : s.rs ≠ .faulted) (h : exec i s = .next t) :
    ∃ t', exec i (withHidden s q o fc ns) = .next t' ∧ AgreeButHidden q t t' ∧ (t.rs = .faulted → t'.fc = t.fc) := by
  rcases exec_next_trap_or_effect h with ⟨e, he, rfl⟩ | ⟨-, he⟩
  · exact ⟨_, exec_of_effectTrap (by rw [effectTrap_withHidden, he]), agreeButHidden_raise q o fc ns s e, fun _ => rfl⟩
  · obtain ⟨t', he', ha⟩ := he.withHidden q o fc ns
    exact ⟨t', he'.exec_eq, ha, fun ht => absurd ht (he.rs_ne_faulted hs)⟩

/-- A step takes the same course, and a fault leaves the same record. -/
theorem step_withHidden (h : step s = .next t) :
    ∃ t', step (withHidden s q o fc ns) = .next t' ∧ AgreeButHidden q t t' ∧ (t.rs = .faulted → t'.fc = t.fc) := by
  rcases step_next_cases h with ⟨hs, rfl⟩ | ⟨hr, ⟨e, hd, rfl⟩ | ⟨i, hd, hx⟩⟩
  · have hstep : step (withHidden t q o fc ns) = .next (withHidden t q o fc ns) := by
      have : (withHidden t q o fc ns).rs = .halted := hs
      simp only [step, this]
    exact ⟨_, hstep, ⟨rfl, rfl, rfl, rfl, rfl, rfl⟩, fun ht => by simp [hs] at ht⟩
  · exact ⟨_, step_of_fetchDecode_error hr hd, agreeButHidden_raise q o fc ns s e, fun _ => rfl⟩
  · rw [step_of_fetchDecode (s := withHidden s q o fc ns) hr hd]
    exact exec_withHidden q o fc ns (by simp) hx

end Hidden

/-- Settles O48: the step from the state with another outbound side. -/
theorem hiddenStateDoesNotSteerTheStep : Obligations.HiddenStateDoesNotSteerTheStep := by
  intro s t q o fc ns h
  obtain ⟨t', ht', ⟨hm, hip, hrb, hqin, hrs, hqout⟩, hfc⟩ := step_withHidden q o fc ns h
  exact ⟨t', ht', hm, hip, hrb, hqin, hrs, hqout, hfc⟩

/-! ### Values behind the head of `Qin` (spec/10_state.md R26) -/

/-- The state with more values behind those in `Qin`. -/
def State.feed (s : State) (q : List Word) : State := { s with qin := s.qin ++ q }

section Feed
variable {i : Instr} {s t : State} (q r : List Word)

@[simp] theorem State.feed_nil : s.feed [] = s := by simp [feed]
@[simp] theorem State.feed_feed : (s.feed q).feed r = s.feed (q ++ r) := by simp [feed]
@[simp] theorem State.feed_mem : (s.feed q).mem = s.mem := rfl
@[simp] theorem State.feed_ip : (s.feed q).ip = s.ip := rfl
@[simp] theorem State.feed_qin : (s.feed q).qin = s.qin ++ q := rfl
@[simp] theorem State.feed_qout : (s.feed q).qout = s.qout := rfl
@[simp] theorem State.feed_rs : (s.feed q).rs = s.rs := rfl
@[simp] theorem State.feed_obs : (s.feed q).obs = s.obs := rfl
@[simp] theorem State.feed_notices : (s.feed q).notices = s.notices := rfl

/-- Every effect but a suspension is the same from a state with more values in `Qin`. -/
theorem Effect.feed (he : Effect s i t) (ht : t.rs ≠ .suspended) : Effect (s.feed q) i (t.feed q) := by
  cases he with
  | add ha hb hd hv => exact .add ha hb hd hv
  | multiply ha hb hd hv => exact .multiply ha hb hd hv
  | lessThan ha hb hd => exact .lessThan ha hb hd
  | equals ha hb hd => exact .equals ha hb hd
  | suspend => exact absurd rfl ht
  | input hq hd => exact Effect.input (s := s.feed q) (congrArg (· ++ q) hq) hd
  | output ha => exact .output ha
  | jumpIfTrue ha hb hc => exact .jumpIfTrue ha hb hc
  | passIfTrue ha hc => exact .passIfTrue ha hc
  | jumpIfFalse ha hb hc => exact .jumpIfFalse ha hb hc
  | passIfFalse ha hc => exact .passIfFalse ha hc
  | adjustRelativeBase ha hv => exact .adjustRelativeBase ha hv
  | halt => exact .halt

/-- A test that fails, fails with more values in `Qin`. -/
theorem effectTrap_feed {e : Trap} (h : effectTrap i s = some e) : effectTrap i (s.feed q) = some e := by
  have hq : ∀ p h, i = .input p h → s.qin ≠ [] := by
    rintro p h' rfl hq
    simp [effectTrap_input_of_nil hq] at h
  rw [effectTrap_eq hq] at h
  rw [effectTrap_eq fun p h' hi => by simp [hq p h' hi], ← h]
  cases i <;> rfl

/-- An instruction that does not suspend takes the same course with more values in `Qin`. -/
theorem exec_feed (h : exec i s = .next t) (ht : t.rs ≠ .suspended) : exec i (s.feed q) = .next (t.feed q) := by
  rcases exec_next_trap_or_effect h with ⟨e, he, rfl⟩ | ⟨-, he⟩
  · exact exec_of_effectTrap (effectTrap_feed q he)
  · exact (he.feed q ht).exec_eq

/-- So does a step. -/
theorem step_feed (h : step s = .next t) (ht : t.rs ≠ .suspended) : step (s.feed q) = .next (t.feed q) := by
  rcases step_next_cases h with ⟨hs, rfl⟩ | ⟨hr, ⟨e, hd, rfl⟩ | ⟨i, hd, hx⟩⟩
  · have : (t.feed q).rs = .halted := hs
    simp only [step, this]
  · exact step_of_fetchDecode_error (s := s.feed q) hr hd
  · rw [step_of_fetchDecode (s := s.feed q) hr hd]
    exact exec_feed q hx ht

end Feed

/-- Settles O49: the step with more values in `Qin`. -/
theorem laterInputsDoNotSteerTheStep : Obligations.LaterInputsDoNotSteerTheStep := fun _ _ q h ht => step_feed q h ht

end Sys2Proof.Machine
end

section
/-! SUPPORT. Networks: what one step of an instance does to the others, and why the order of the steps does not matter
(spec/49_run_and_host.md R176 to R183). -/

namespace Sys2Proof.Machine

/-! ### Links and preloads -/

@[simp] theorem length_linkFrom (wiring : Nat → Option Consumer) (k : Nat) (vms : List State) :
    (linkFrom wiring k vms).length = vms.length := by
  induction vms generalizing k with
  | nil => rfl
  | cons s rest ih => simp [linkFrom, ih]

/-- Feeding several values puts them behind those in `Qin`. -/
theorem pushAll_eq_feed (q : List Word) (s : State) : pushAll q s = s.feed q := by
  induction q generalizing s with
  | nil => simp [pushAll]
  | cons v q ih =>
    have : (s.pushIn v).feed q = s.feed (v :: q) := by simp [State.pushIn, State.feed]
    rw [← this, ← ih]
    rfl

/-- Settles O53: each list of instances is mapped, linked, and for the loop seeded at index 0. -/
theorem topologiesAreWiredAndPreloaded : Obligations.TopologiesAreWiredAndPreloaded := by
  refine ⟨fun s pre => ⟨by simp [pipelineStart], fun i q hs hq => ?_⟩,
    fun s phases seed => ⟨by simp [feedbackStart], fun i v hs hv => ?_⟩⟩
  · simp [pipelineStart, linkFrom_get, hq, pushAll_eq_feed, setObserver, pipelineWiring, State.feed, hs]
  · cases i with
    | zero => simp [feedbackStart, linkFrom_get, hv, setObserver, ringWiring, State.pushIn, hs]
    | succ i => simp [feedbackStart, linkFrom_get, hv, setObserver, ringWiring, State.pushIn, hs]

/-! ### One step of an instance in a network -/

/-- The values that the step from `s` to `t` sends to instance `k`. -/
def sent (s t : State) (k : Nat) : List Word := valuesFor (t.notices.drop s.notices.length) k

/-- The network after instance `i` took the step from `s` to `t`. -/
def bridged (i : Nat) (s t : State) (vms : List State) : List State :=
  deliver (t.notices.drop s.notices.length) (vms.set i t)

theorem stepVm_of_step {i : Nat} {vms : List State} {s t : State} (hi : vms[i]? = some s) (h : step s = .next t) :
    stepVm i vms = .next (bridged i s t vms) := by
  simp only [stepVm, hi, h, bridged]

/-- Each instance of the network after a step: the one that took it, or the one before, with the values sent to it. -/
theorem bridged_get (i : Nat) (s t : State) (vms : List State) (k : Nat) :
    (bridged i s t vms)[k]? = (vms.set i t)[k]?.map (·.feed (sent s t k)) :=
  deliver_get _ _ _

@[simp] theorem length_bridged (i : Nat) (s t : State) (vms : List State) :
    (bridged i s t vms).length = vms.length := by
  simp [bridged]

/-- A step without notifications changes its own instance only. -/
theorem bridged_of_notices_eq {s t : State} (h : t.notices = s.notices) (i : Nat) (vms : List State) :
    bridged i s t vms = vms.set i t := by
  rw [bridged, h, List.drop_length, deliver]

/-- A step keeps the registration, and adds notifications to it only. -/
theorem step_notices {s t : State} (h : step s = .next t) :
    t.obs = s.obs ∧ ∃ ns, t.notices = s.notices ++ ns ∧ ∀ n ∈ ns, s.obs = some n.consumer := by
  rcases step_cases h with ⟨-, rfl⟩ | ⟨-, e, rfl⟩ | ⟨-, i, -, he⟩
  · exact ⟨rfl, [], by simp, by simp⟩
  · exact ⟨rfl, [], by simp, by simp⟩
  · refine ⟨he.obs_eq, ?_⟩
    by_cases hout : ∃ a high, i = .output a high
    · obtain ⟨a, high, rfl⟩ := hout
      cases he
      refine ⟨_, rfl, ?_⟩
      cases ho : s.obs <;> simp [ho]
    · refine ⟨[], ?_, by simp⟩
      rw [(he.qout_eq fun a high hi => hout ⟨a, high, hi⟩).2, State.setRs_notices, List.append_nil]

/-- A step sends values to the linked instance only. -/
theorem sent_eq_nil {s t : State} (h : step s = .next t) {k : Nat} (hk : s.obs ≠ some (.vm k)) : sent s t k = [] := by
  obtain ⟨-, ns, hn, hns⟩ := step_notices h
  rw [sent, hn, List.drop_left, valuesFor, List.map_eq_nil_iff, List.filter_eq_nil_iff]
  intro n hmem hc
  rw [hns n hmem, of_decide_eq_true hc] at hk
  exact hk rfl

/-- Settles O52: the effect of output notifies the link once, and the bridge pushes that value. -/
theorem outputReachesTheLinkedInstanceInTheSameStep : Obligations.OutputReachesTheLinkedInstanceInTheSameStep := by
  intro vms i j s a high hi hr hd ha ho
  have he : Effect (s.setRs .ready) (.output a high) _ := .output ha
  have hstep := (step_of_fetchDecode hr hd).trans he.exec_eq
  refine ⟨_, stepVm_of_step hi hstep, length_bridged .., fun k u hu => ?_⟩
  rw [bridged_get]
  have hsent : ∀ k, sent s (((((s.setRs .ready).setMem (touched (s.setRs .ready) [a])).pushOut
      (operandValue (s.setRs .ready) a)).notify (operandValue (s.setRs .ready) a)).advance 2) k =
        if k = j then [operandValue s a] else [] := by
    intro k
    by_cases hk : k = j
    · simp [sent, ho, valuesFor, hk]
    · simp [sent, ho, valuesFor, hk, Ne.symm hk]
  rw [hsent]
  by_cases hki : k = i
  · subst hki
    obtain rfl : s = u := Option.some.inj (hi.symm.trans hu)
    have hlt := (List.getElem?_eq_some_iff.mp hi).1
    exact ⟨_, by rw [List.getElem?_set_self hlt, Option.map_some], rfl, by simp⟩
  · exact ⟨_, by rw [List.getElem?_set_ne (Ne.symm hki), hu, Option.map_some], rfl, by simp [hki]⟩

/-! ### Enabled steps -/

/-- An enabled instance is runnable and does not wait. -/
theorem enabled_iff {s : State} : enabled s = true ↔ Runnable s ∧ waiting s = false := by
  simp [enabled, Runnable]

/-- More values in `Qin` disable nothing. -/
theorem enabled_feed {s : State} (h : enabled s = true) (q : List Word) : enabled (s.feed q) = true := by
  obtain ⟨hr, hw⟩ := enabled_iff.mp h
  refine enabled_iff.mpr ⟨hr, ?_⟩
  simp only [waiting, Bool.and_eq_false_iff] at hw ⊢
  refine hw.imp id fun hq => ?_
  cases hs : s.qin <;> simp_all

/-- An enabled instance has its step, which does not suspend. -/
theorem exists_step_of_enabled {s : State} (h : enabled s = true) : ∃ t, step s = .next t ∧ t.rs ≠ .suspended := by
  obtain ⟨hr, hw⟩ := enabled_iff.mp h
  obtain ⟨t, ht⟩ := (stepAlwaysAnswersUnlessFaulted s).1 (by rcases hr with h | h <;> simp [h])
  refine ⟨t, ht, fun hs => ?_⟩
  obtain ⟨-, hw', -⟩ := step_suspended ht hs
  simp [hw] at hw'

/-- The steps of two instances send values to different instances. -/
theorem sent_eq_nil_or {vms : List State} {i j : Nat} {s t u v : State} (hp : SingleProducer vms) (hij : i ≠ j)
    (hi : vms[i]? = some s) (hj : vms[j]? = some u) (hs : step s = .next t) (hu : step u = .next v) (k : Nat) :
    sent s t k = [] ∨ sent u v k = [] := by
  by_cases h : s.obs = some (.vm k)
  · exact .inr (sent_eq_nil hu fun h' => hij (hp i j k s u hi hj h h'))
  · exact .inl (sent_eq_nil hs h)

/-- The other instance of a network after a step. -/
theorem bridged_get_of_ne {i j : Nat} {s t u : State} {vms : List State} (hij : i ≠ j) (hj : vms[j]? = some u) :
    (bridged i s t vms)[j]? = some (u.feed (sent s t j)) := by
  rw [bridged_get, List.getElem?_set_ne hij, hj, Option.map_some]

/-- The steps of two instances lead to the same network in either order. -/
theorem bridged_comm {vms : List State} {i j : Nat} {s t u v : State} (hij : i ≠ j)
    (hsent : ∀ k, sent s t k = [] ∨ sent u v k = []) :
    bridged j (u.feed (sent s t j)) (v.feed (sent s t j)) (bridged i s t vms) =
      bridged i (s.feed (sent u v i)) (t.feed (sent u v i)) (bridged j u v vms) := by
  refine List.ext_getElem? fun k => ?_
  have hcomm : ∀ x : State, (x.feed (sent s t k)).feed (sent u v k) = (x.feed (sent u v k)).feed (sent s t k) := by
    intro x
    rcases hsent k with h | h <;> simp [h]
  have hfeed : ∀ (a b : State) (q : List Word), sent (a.feed q) (b.feed q) k = sent a b k := fun _ _ _ => rfl
  rw [bridged_get, bridged_get, hfeed, hfeed]
  by_cases hki : k = i
  · subst hki
    rw [List.getElem?_set_ne hij.symm, bridged_get]
    by_cases hlt : k < vms.length
    · simp [hlt, hcomm, -State.feed_feed]
    · simp [hlt]
  · by_cases hkj : k = j
    · subst hkj
      rw [List.getElem?_set_ne hij, bridged_get]
      by_cases hlt : k < vms.length
      · simp [hlt, hcomm, -State.feed_feed]
      · simp [hlt]
    · rw [List.getElem?_set_ne (Ne.symm hkj), List.getElem?_set_ne (Ne.symm hki), bridged_get, bridged_get,
        List.getElem?_set_ne (Ne.symm hki), List.getElem?_set_ne (Ne.symm hkj)]
      cases vms[k]? <;> simp [hcomm, -State.feed_feed]

/-- Settles O55: each step is taken with the values that the other sends behind those in `Qin`, which it cannot see. -/
theorem enabledStepsCommute : Obligations.EnabledStepsCommute := by
  intro vms i j s u hij hp hi hj hs hu
  obtain ⟨t, ht, hts⟩ := exists_step_of_enabled hs
  obtain ⟨v, hv, hvs⟩ := exists_step_of_enabled hu
  refine ⟨_, _, _, stepVm_of_step hi ht, stepVm_of_step (bridged_get_of_ne hij hj) (step_feed _ hv hvs),
    stepVm_of_step hj hv, ?_⟩
  rw [bridged_comm hij (sent_eq_nil_or hp hij hi hj ht hv)]
  exact stepVm_of_step (bridged_get_of_ne hij.symm hi) (step_feed _ ht hts)

end Sys2Proof.Machine
end

section
/-! SUPPORT. Schedules of a network: deadlock, the confluence of every schedule, and the round-robin driver as one. -/

namespace Sys2Proof.Machine

/-! ### Deadlock -/

/-- In a deadlocked network every instance is halted, or suspended at an input on an empty queue. -/
theorem halted_or_waiting_of_deadlocked {vms : List State} (hinv : ∀ s ∈ vms, s.Inv) (hd : deadlocked vms = true)
    {s : State} (hs : s ∈ vms) : s.rs = .halted ∨ (s.rs = .suspended ∧ waiting s = true) := by
  simp only [deadlocked, Bool.and_eq_true, List.all_eq_true, Bool.or_eq_true, beq_iff_eq] at hd
  refine (hd.2 s hs).imp id fun ⟨hsusp, hq⟩ => ⟨hsusp, ?_⟩
  obtain ⟨-, -, -, -, -, hat⟩ := hinv s hs
  rw [waiting, hat hsusp, hq, Bool.and_self]

/-- A waiting instance that is run suspends again, and the network is as before. -/
theorem runVm_of_waiting {vms : List State} {i : Nat} {s : State} (hi : vms[i]? = some s) (hr : s.rs = .suspended)
    (hw : waiting s = true) (bound : Nat) : runVm (bound + 1) i vms = (.suspended, vms) := by
  have hlt := (List.getElem?_eq_some_iff.mp hi).1
  have hstep : step (s.setRs .ready) = .next s :=
    (step_of_waiting (s := s.setRs .ready) (.inl rfl) hw).trans (congrArg _ (State.setRs_self s _ hr))
  have hi' : (vms.set i (s.setRs .ready))[i]? = some (s.setRs .ready) := List.getElem?_set_self hlt
  have hset : vms.set i s = vms := by
    rw [List.getElem?_eq_some_iff] at hi
    rw [← hi.2, List.set_getElem_self]
  have hvm : stepVm i (vms.set i (s.setRs .ready)) = .next vms := by
    rw [stepVm_of_step hi' hstep, bridged_of_notices_eq (State.setRs_notices s .ready).symm, List.set_set, hset]
  simp only [runVm, hi, hr, runVmLoop, hvm, Option.bind_some, stopOf]

/-- Settles O54: nothing in a deadlocked network is enabled, and running it only suspends again. -/
theorem deadlockIsStable : Obligations.DeadlockIsStable := by
  intro vms hinv hd
  refine ⟨fun s hs => ?_, ?_, fun bound i hlt => ?_⟩
  · rcases halted_or_waiting_of_deadlocked hinv hd hs with h | ⟨-, h⟩
    · simp [enabled, h]
    · simp [enabled, h]
  · simp only [deadlocked, Bool.and_eq_true, Bool.not_eq_true', List.all_eq_false, beq_iff_eq] at hd
    exact hd.1
  · have hi : vms[i]? = some vms[i] := List.getElem?_eq_getElem hlt
    rcases halted_or_waiting_of_deadlocked hinv hd (List.getElem_mem hlt) with h | ⟨h, hw⟩
    · exact ⟨.halted, by simp only [runVm, hi, h], .inl rfl⟩
    · exact ⟨.suspended, runVm_of_waiting hi h hw bound, .inr rfl⟩

/-! ### Schedules -/

/-- Instance `i` has an enabled step. -/
def EnabledAt (i : Nat) (vms : List State) : Prop := ∃ s, vms[i]? = some s ∧ enabled s = true

/-- The network after one entry of a schedule. -/
def move (i : Nat) (vms : List State) : List State := runSchedule [i] vms

/-- A schedule is its entries, one after the other. -/
theorem runSchedule_eq_foldl (a : List Nat) (vms : List State) :
    runSchedule a vms = a.foldl (fun vms i => move i vms) vms := by
  induction a generalizing vms with
  | nil => rfl
  | cons i a ih =>
    rw [List.foldl_cons, ← ih, move]
    simp only [runSchedule]
    split
    · split <;> rfl
    · rfl

theorem runSchedule_cons (i : Nat) (a : List Nat) (vms : List State) :
    runSchedule (i :: a) vms = runSchedule a (move i vms) := by
  simp only [runSchedule_eq_foldl, List.foldl_cons]

theorem runSchedule_append (a b : List Nat) (vms : List State) :
    runSchedule (a ++ b) vms = runSchedule b (runSchedule a vms) := by
  simp only [runSchedule_eq_foldl, List.foldl_append]

/-- An entry of an enabled instance is its step. -/
theorem move_of_enabled {i : Nat} {vms : List State} {s t : State} (hi : vms[i]? = some s) (hs : enabled s = true)
    (h : step s = .next t) : move i vms = bridged i s t vms := by
  simp [move, runSchedule, hi, hs, stepVm_of_step hi h]

/-- An entry of another instance changes nothing. -/
theorem move_of_not_enabled {i : Nat} {vms : List State} (h : ¬EnabledAt i vms) : move i vms = vms := by
  have : ¬((vms[i]?.map enabled).getD false = true) := fun hs => by
    cases hi : vms[i]? with
    | none => simp [hi] at hs
    | some s => exact h ⟨s, hi, by simpa [hi] using hs⟩
  simp [move, runSchedule, this]

/-- A network at rest has no enabled instance. -/
theorem AtRest.not_enabledAt {vms : List State} (h : AtRest vms) (i : Nat) : ¬EnabledAt i vms := by
  rintro ⟨s, hi, hs⟩
  simp [h s (List.mem_of_getElem? hi)] at hs

/-- A network at rest stays as it is. -/
theorem AtRest.runSchedule_eq {vms : List State} (h : AtRest vms) (a : List Nat) : runSchedule a vms = vms := by
  induction a with
  | nil => rfl
  | cons i a ih => rw [runSchedule_cons, move_of_not_enabled (h.not_enabledAt i), ih]

/-- Every instance after an entry keeps its registration. -/
theorem move_obs {i k : Nat} {vms : List State} {s' : State} (hk : (move i vms)[k]? = some s') :
    ∃ s, vms[k]? = some s ∧ s'.obs = s.obs := by
  by_cases he : EnabledAt i vms
  · obtain ⟨s, hi, hs⟩ := he
    obtain ⟨t, ht, -⟩ := exists_step_of_enabled hs
    rw [move_of_enabled hi hs ht, bridged_get] at hk
    by_cases hki : i = k
    · subst hki
      have hlt := (List.getElem?_eq_some_iff.mp hi).1
      rw [List.getElem?_set_self hlt] at hk
      cases hk
      exact ⟨s, hi, (step_notices ht).1⟩
    · rw [List.getElem?_set_ne hki] at hk
      obtain ⟨u, hu, rfl⟩ := Option.map_eq_some_iff.mp hk
      exact ⟨u, hu, rfl⟩
  · rw [move_of_not_enabled he] at hk
    exact ⟨s', hk, rfl⟩

/-- An entry makes no second producer. -/
theorem SingleProducer.move {vms : List State} (h : SingleProducer vms) (i : Nat) : SingleProducer (move i vms) := by
  intro j k l s u hj hk hs hu
  obtain ⟨s₀, hj₀, hso⟩ := move_obs hj
  obtain ⟨u₀, hk₀, huo⟩ := move_obs hk
  exact h j k l s₀ u₀ hj₀ hk₀ (hso ▸ hs) (huo ▸ hu)

/-- The step of one instance leaves another enabled. -/
theorem EnabledAt.move {i j : Nat} {vms : List State} (hij : i ≠ j) (hj : EnabledAt j vms) :
    EnabledAt j (move i vms) := by
  by_cases hi : EnabledAt i vms
  · obtain ⟨s, hi, hs⟩ := hi
    obtain ⟨u, hj, hu⟩ := hj
    obtain ⟨t, ht, -⟩ := exists_step_of_enabled hs
    rw [move_of_enabled hi hs ht]
    exact ⟨_, bridged_get_of_ne hij hj, enabled_feed hu _⟩
  · rwa [move_of_not_enabled hi]

/-- The diamond: two enabled entries may be exchanged. -/
theorem move_comm {i j : Nat} {vms : List State} (hp : SingleProducer vms) (hi : EnabledAt i vms)
    (hj : EnabledAt j vms) : move j (move i vms) = move i (move j vms) := by
  by_cases hij : i = j
  · rw [hij]
  · obtain ⟨s, hi, hs⟩ := hi
    obtain ⟨u, hj, hu⟩ := hj
    obtain ⟨t, ht, hts⟩ := exists_step_of_enabled hs
    obtain ⟨v, hv, hvs⟩ := exists_step_of_enabled hu
    rw [move_of_enabled hi hs ht, move_of_enabled hj hu hv,
      move_of_enabled (bridged_get_of_ne hij hj) (enabled_feed hu _) (step_feed _ hv hvs),
      move_of_enabled (bridged_get_of_ne (Ne.symm hij) hi) (enabled_feed hs _) (step_feed _ ht hts)]
    exact bridged_comm hij (sent_eq_nil_or hp hij hi hj ht hv)

/-- An enabled step may be taken first: a schedule that comes to rest takes it at some time. -/
theorem exists_schedule_after_move {vms : List State} (hp : SingleProducer vms) {i : Nat} (hi : EnabledAt i vms)
    {b : List Nat} (hb : AtRest (runSchedule b vms)) :
    ∃ b', runSchedule b' (move i vms) = runSchedule b vms := by
  induction b generalizing vms with
  | nil => exact absurd hi (hb.not_enabledAt i)
  | cons j b ih =>
    rw [runSchedule_cons] at hb ⊢
    by_cases hij : i = j
    · exact ⟨b, by rw [hij]⟩
    · by_cases hj : EnabledAt j vms
      · obtain ⟨b', hb'⟩ := ih (hp.move j) (hi.move (Ne.symm hij)) hb
        exact ⟨j :: b', by rw [runSchedule_cons, move_comm hp hi hj, hb']⟩
      · rw [move_of_not_enabled hj] at hb ⊢
        exact ih hp hi hb

/-- Settles O56: by induction on one schedule, whose first enabled step the other can take first. -/
theorem everyInterleavingReachesTheSameNetwork : Obligations.EveryInterleavingReachesTheSameNetwork := by
  intro vms a b hp ha hb
  induction a generalizing vms b with
  | nil => exact (AtRest.runSchedule_eq ha b).symm
  | cons i a ih =>
    rw [runSchedule_cons] at ha ⊢
    by_cases hi : EnabledAt i vms
    · obtain ⟨b', hb'⟩ := exists_schedule_after_move hp hi hb
      rw [ih (move i vms) b' (hp.move i) ha (by rwa [hb']), hb']
    · rw [move_of_not_enabled hi] at ha ⊢
      exact ih vms b hp ha hb

/-! ### The round-robin driver as a schedule -/

/-- The instance as the next run takes it: `READY` where it was `SUSPENDED` (spec/49_run_and_host.md R165). -/
def wake (s : State) : State := if s.rs = .suspended then s.setRs .ready else s

/-- The network with every suspended instance woken. -/
def wakeAll (vms : List State) : List State := vms.map wake

theorem wake_eq_self {s : State} (h : s.rs ≠ .suspended) : wake s = s := if_neg h

theorem wake_of_runnable {s : State} (h : Runnable s) : wake s = s.setRs .ready := by
  rcases h with h | h
  · rw [wake_eq_self (by simp [h]), State.setRs_self s _ h]
  · exact if_pos h

/-- Waking changes nothing but `RS`. -/
theorem wake_eq_setRs (s : State) : ∃ r, wake s = s.setRs r := by
  by_cases h : s.rs = .suspended
  · exact ⟨.ready, if_pos h⟩
  · exact ⟨s.rs, by rw [wake_eq_self h, State.setRs_self s _ rfl]⟩

theorem wake_feed (s : State) (q : List Word) : wake (s.feed q) = (wake s).feed q := by
  unfold wake
  rw [State.feed_rs]
  split <;> rfl

theorem sent_wake (s t : State) (k : Nat) : sent (wake s) (wake t) k = sent s t k := by
  obtain ⟨r, hr⟩ := wake_eq_setRs s
  obtain ⟨r', hr'⟩ := wake_eq_setRs t
  rw [hr, hr']
  rfl

/-- Waking enables nothing and disables nothing. -/
theorem enabled_wake (s : State) : enabled (wake s) = enabled s := by
  unfold wake
  split
  · simp [enabled, waiting, ‹s.rs = _›]
  · rfl

theorem step_wake {s : State} (h : Runnable s) : step (wake s) = step s := by
  rw [wake_of_runnable h, step_of_runnable h, step_of_runnable (.inl rfl)]
  rfl

theorem wakeAll_get (vms : List State) (k : Nat) : (wakeAll vms)[k]? = vms[k]?.map wake := List.getElem?_map

/-- The bridge does not see whether an instance sleeps. -/
theorem wakeAll_bridged (i : Nat) (s t : State) (vms : List State) :
    wakeAll (bridged i s t vms) = bridged i (wake s) (wake t) (wakeAll vms) := by
  refine List.ext_getElem? fun k => ?_
  rw [wakeAll_get, bridged_get, bridged_get, sent_wake, wakeAll, ← List.map_set, List.getElem?_map]
  cases (vms.set i t)[k]? <;> simp [wake_feed]

theorem enabledAt_wakeAll {i : Nat} {vms : List State} : EnabledAt i (wakeAll vms) ↔ EnabledAt i vms := by
  unfold EnabledAt
  rw [wakeAll_get]
  cases vms[i]? <;> simp [enabled_wake]

/-- An entry of a schedule does not see whether an instance sleeps. -/
theorem wakeAll_move (i : Nat) (vms : List State) : wakeAll (move i vms) = move i (wakeAll vms) := by
  by_cases he : EnabledAt i vms
  · obtain ⟨s, hi, hs⟩ := he
    obtain ⟨t, ht, hts⟩ := exists_step_of_enabled hs
    have hi' : (wakeAll vms)[i]? = some (wake s) := by rw [wakeAll_get, hi, Option.map_some]
    have ht' : step (wake s) = .next (wake t) := by
      rw [step_wake (enabled_iff.mp hs).1, ht, wake_eq_self hts]
    rw [move_of_enabled hi hs ht, wakeAll_bridged, move_of_enabled hi' (by rwa [enabled_wake]) ht']
  · rw [move_of_not_enabled he, move_of_not_enabled (by rwa [enabledAt_wakeAll])]

theorem wakeAll_runSchedule (a : List Nat) (vms : List State) :
    wakeAll (runSchedule a vms) = runSchedule a (wakeAll vms) := by
  induction a generalizing vms with
  | nil => rfl
  | cons i a ih => rw [runSchedule_cons, runSchedule_cons, ih, wakeAll_move]

/-- Replacing an instance by one that wakes to the same changes no woken network. -/
theorem wakeAll_set {i : Nat} {vms : List State} {s t : State} (hi : vms[i]? = some s) (h : wake t = wake s) :
    wakeAll (vms.set i t) = wakeAll vms := by
  obtain ⟨hlt, rfl⟩ := List.getElem?_eq_some_iff.mp hi
  rw [wakeAll, List.map_set, h, ← List.map_set, List.set_getElem_self, wakeAll]

/-- The step of an instance that is not enabled changes at most its run state, to sleep. -/
theorem step_of_not_enabled {s t : State} (hs : enabled s = false) (h : step s = .next t) :
    wake t = wake s ∧ t.notices = s.notices := by
  by_cases hr : Runnable s
  · have hw : waiting s = true := by
      by_contra hw
      simp [enabled_iff.mpr ⟨hr, by simpa using hw⟩] at hs
    rw [step_of_waiting hr hw] at h
    cases h
    exact ⟨by rw [wake_of_runnable (s := s.suspend) (.inr rfl), wake_of_runnable hr]; rfl, rfl⟩
  · rcases step_cases h with ⟨-, rfl⟩ | ⟨hr', -⟩ | ⟨hr', -⟩
    · exact ⟨rfl, rfl⟩
    · exact absurd hr' hr
    · exact absurd hr' hr

/-- The driver's step is an entry of a schedule of the woken network. -/
theorem wakeAll_stepVm {i : Nat} {vms vms' : List State} (h : stepVm i vms = .next vms') :
    wakeAll vms' = move i (wakeAll vms) := by
  cases hi : vms[i]? with
  | none =>
    simp only [stepVm, hi] at h
    cases h
    refine (move_of_not_enabled ?_).symm
    rw [enabledAt_wakeAll]
    rintro ⟨s, hs, -⟩
    simp [hi] at hs
  | some s =>
    cases ht : step s with
    | fault r => simp [stepVm, hi, ht] at h
    | refused r => simp [stepVm, hi, ht] at h
    | next t =>
      rw [stepVm_of_step hi ht] at h
      cases h
      cases hs : enabled s with
      | true => rw [← move_of_enabled hi hs ht, wakeAll_move]
      | false =>
        obtain ⟨hw, hn⟩ := step_of_not_enabled hs ht
        rw [bridged_of_notices_eq hn, wakeAll_set hi hw, move_of_not_enabled]
        rw [enabledAt_wakeAll]
        rintro ⟨u, hu, hu'⟩
        obtain rfl : s = u := Option.some.inj (hi.symm.trans hu)
        simp [hs] at hu'

/-- The woken network `vms'` is reached from the woken `vms` by some schedule. -/
def ReachedBySchedule (vms vms' : List State) : Prop := ∃ a, wakeAll vms' = runSchedule a (wakeAll vms)

theorem ReachedBySchedule.refl (vms : List State) : ReachedBySchedule vms vms := ⟨[], rfl⟩

theorem ReachedBySchedule.trans {vms₁ vms₂ vms₃ : List State} (h : ReachedBySchedule vms₁ vms₂)
    (h' : ReachedBySchedule vms₂ vms₃) : ReachedBySchedule vms₁ vms₃ := by
  obtain ⟨a, ha⟩ := h
  obtain ⟨b, hb⟩ := h'
  exact ⟨a ++ b, by rw [runSchedule_append, ← ha, hb]⟩

theorem reachedBySchedule_runVmLoop (bound i : Nat) (vms : List State) :
    ReachedBySchedule vms (runVmLoop bound i vms).2 := by
  induction bound generalizing vms with
  | zero => exact .refl vms
  | succ bound ih =>
    rw [runVmLoop]
    split
    · exact .refl vms
    · exact .refl vms
    · have hstep : ReachedBySchedule vms _ := ⟨[i], wakeAll_stepVm ‹_›⟩
      split
      · exact hstep
      · exact hstep.trans (ih _)

/-- The run of one instance is a schedule. -/
theorem reachedBySchedule_runVm (bound i : Nat) (vms : List State) :
    ReachedBySchedule vms (runVm bound i vms).2 := by
  unfold runVm
  split
  · exact .refl vms
  · rename_i s hi
    have hwoken : Runnable s → ReachedBySchedule vms (runVmLoop bound i (vms.set i (s.setRs .ready))).2 := by
      intro hr
      have hw : wakeAll (vms.set i (s.setRs .ready)) = wakeAll vms :=
        wakeAll_set hi (by rw [wake_of_runnable hr, wake_eq_self (by simp)])
      exact ReachedBySchedule.trans ⟨[], hw⟩ (reachedBySchedule_runVmLoop ..)
    split
    · exact .refl vms
    · exact .refl vms
    · exact hwoken (.inl ‹_›)
    · exact hwoken (.inr ‹_›)

/-- A round is a schedule. -/
theorem reachedBySchedule_roundLoop (bound : Nat) (is : List Nat) (vms : List State) :
    ReachedBySchedule vms (roundLoop bound is vms).2 := by
  induction is generalizing vms with
  | nil => exact .refl vms
  | cons i is ih =>
    have hrun := reachedBySchedule_runVm bound i vms
    rw [roundLoop]
    split <;> rename_i hv <;> rw [hv] at hrun
    · exact hrun.trans (ih _)
    · exact hrun.trans (ih _)
    all_goals exact hrun

/-- A round never ends with a signal. -/
theorem roundLoop_ne_signal (bound : Nat) (is : List Nat) (vms : List State) (v : Word) :
    (roundLoop bound is vms).1 ≠ some (.signal v) := by
  induction is generalizing vms with
  | nil => simp [roundLoop]
  | cons i is ih =>
    rw [roundLoop]
    split
    · exact ih _
    · exact ih _
    all_goals simp

/-- A driver that gives a signal has run a schedule to a network of halted instances with that signal. -/
theorem feedbackRounds_signal {bound rounds : Nat} {vms vms' : List State} {v : Word}
    (h : feedbackRounds bound rounds vms = (.signal v, vms')) :
    ReachedBySchedule vms vms' ∧ (∀ s ∈ vms', s.rs = .halted) ∧ finalSignal vms' = .signal v := by
  induction rounds generalizing vms with
  | zero => cases h
  | succ rounds ih =>
    have hround := reachedBySchedule_roundLoop bound (List.range vms.length) vms
    have hne := roundLoop_ne_signal bound (List.range vms.length) vms v
    rw [feedbackRounds] at h
    split at h <;> rename_i hr <;> rw [hr] at hround hne
    · cases h
      exact absurd rfl hne
    · split at h
      · rename_i hall
        obtain ⟨hsig, rfl⟩ := Prod.mk.inj h
        exact ⟨hround, by simpa using hall, hsig⟩
      · split at h
        · cases h
        · obtain ⟨hreach, hrest⟩ := ih h
          exact ⟨hround.trans hreach, hrest⟩

/-- Waking changes nothing in a network of halted instances. -/
theorem wakeAll_of_halted {vms : List State} (h : ∀ s ∈ vms, s.rs = .halted) : wakeAll vms = vms :=
  (List.map_congr_left fun s hs => wake_eq_self (by simp [h s hs])).trans (List.map_id vms)

/-- A network of halted instances is at rest. -/
theorem atRest_of_halted {vms : List State} (h : ∀ s ∈ vms, s.rs = .halted) : AtRest vms := fun s hs => by
  simp [enabled, h s hs]

theorem SingleProducer.wakeAll {vms : List State} (h : SingleProducer vms) : SingleProducer (wakeAll vms) := by
  have hobs : ∀ (k : Nat) (s' : State), (Machine.wakeAll vms)[k]? = some s' →
      ∃ s, vms[k]? = some s ∧ s'.obs = s.obs := by
    intro k s' hk
    rw [wakeAll_get] at hk
    obtain ⟨s, hs, rfl⟩ := Option.map_eq_some_iff.mp hk
    obtain ⟨r, hr⟩ := wake_eq_setRs s
    exact ⟨s, hs, by rw [hr, State.setRs_obs]⟩
  intro i j k s u hi hj hs hu
  obtain ⟨s₀, hi₀, hso⟩ := hobs i s hi
  obtain ⟨u₀, hj₀, huo⟩ := hobs j u hj
  exact h i j k s₀ u₀ hi₀ hj₀ (hso ▸ hs) (huo ▸ hu)

/-- Settles O57: both ends are schedules of the woken network that come to rest, so they are the same network. -/
theorem roundRobinAndConcurrentSignalsAgree : Obligations.RoundRobinAndConcurrentSignalsAgree := by
  intro vms vms' schedule rounds bound v hp hround hhalt
  obtain ⟨⟨a, ha⟩, hhalt', hsig⟩ := feedbackRounds_signal hround
  have hb := wakeAll_runSchedule schedule vms
  rw [wakeAll_of_halted hhalt'] at ha
  rw [wakeAll_of_halted hhalt] at hb
  have heq : runSchedule a (wakeAll vms) = runSchedule schedule (wakeAll vms) :=
    everyInterleavingReachesTheSameNetwork (wakeAll vms) a schedule hp.wakeAll
      (ha ▸ atRest_of_halted hhalt') (hb ▸ atRest_of_halted hhalt)
  rw [hb, ← heq, ← ha, hsig]

end Sys2Proof.Machine
end
